-- ==== Sys2Proof/Word.lean ====
section
/-!
DEFINITION. The words of the machine: what crosses a port or sits in a register as bits.
Every other quantity (a gain being computed, an accumulator, a duration being compared) is a Nat or an Int, because
the spec's pseudocode values are unbounded integers (R7).
-/

namespace Sys2Proof

/-- A command word, `CMD_W` = 32 bits, bit 0 the least significant (R80). -/
abbrev Word := BitVec 32

/-- A 7-bit number: a key, a velocity or a control identifier (R81, R82, R23, R24). -/
abbrev Num7 := BitVec 7

/-- A phase or a phase increment in turns, `PHASE_W` = 32 bits (R6, R25, R26). -/
abbrev Turns := BitVec 32

/-- A gain in `U1.15`: the integer divided by 32768; legal values 0..32768 (R6, R29, R30, R33). -/
abbrev Gain := BitVec 16

/-- A duration register, `DUR_W` = 24 bits, a whole number of samples (R31, R32, R34). -/
abbrev Duration := BitVec 24

/-- One audio sample in `S1.23`: 24-bit two's complement (R6, R56, R57). -/
abbrev Sample := BitVec 24

/-- One frame: the samples of one sample index, channel 0 first; `NCH` of them (R56, R57). -/
abbrev Frame := List Sample

end Sys2Proof
end

