-- ==== Sys2Proof/Syntax.lean ====
section
/-!
DEFINITION. The commands of the block, one constructor per row of spec/opcode_table.json (R80, R86).
A field that a register stores as bits is a `Num7`; `raw` and `n` are the integers that R85 assembles from the word.
-/

namespace Sys2Proof

/-- The four commands (R80). -/
inductive Instr where
  /-- `NOTE key, vel`: note-on, or note-off when `vel` is 0 (R151). -/
  | note (key vel : Num7)
  /-- `CTRL id, raw`: set an envelope parameter; `raw` is `sext_16` of its field (R154, R85). -/
  | ctrl (id : Num7) (raw : Int)
  /-- `ASOFF`: release every active voice (R156). -/
  | asoff
  /-- `RENDER n`: run `n` sample ticks (R157). -/
  | render (n : Nat)
  deriving DecidableEq, Repr

end Sys2Proof
end

