-- ==== Sys2Proof/WellFormed.lean ====
section
/-!
DEFINITION. Which commands have a word: every operand in the range of R85 ("An assembler refuses an operand outside
the range of rule R85", R89). `key`, `vel` and `id` are 7 bits wide by their type, so two checks remain.
-/

namespace Sys2Proof

/-- The range of `raw`, a 16-bit two's complement field (R82, R85). -/
def rawInRange (raw : Int) : Bool := decide (-32768 ≤ raw ∧ raw ≤ 32767)

/-- The range of `n`, a 16-bit unsigned field (R84, R85). -/
def countInRange (n : Nat) : Bool := decide (n ≤ 65535)

/-- Every operand is in the range that R85 gives it. -/
def WellFormed : Instr → Bool
  | .note _ _ => true
  | .ctrl _ raw => rawInRange raw
  | .asoff => true
  | .render n => countInRange n

end Sys2Proof
end

