-- ==== Sys2Proof/Decode.lean ====
section
/-!
DEFINITION. Decoding and encoding a command word (30_encoding.md R80 to R88).
A command is one 32-bit word and nothing is byte-addressed (R60), so there is no byte order to choose.
-/

namespace Sys2Proof

/-- What a word decodes to: a command, or `ILLEGAL` (R88). One illegal cause covers every illegal word (R185 (b)). -/
inductive Decoded where
  | command (i : Instr)
  /-- The word is no command: `op` is 0 or 5..15, or a bit marked "zero" in the format is 1 (R87). -/
  | illegal
  deriving DecidableEq, Repr

/-- The opcode field, bits 31:28 (R80). -/
def opField (w : Word) : BitVec 4 := w.extractLsb' 28 4

/-- `key`, bits 14:8 of format N (R81, R85). -/
def keyField (w : Word) : Num7 := w.extractLsb' 8 7

/-- `vel`, bits 6:0 of format N (R81, R85). -/
def velField (w : Word) : Num7 := w.extractLsb' 0 7

/-- `id`, bits 22:16 of format C (R82, R85). -/
def idField (w : Word) : Num7 := w.extractLsb' 16 7

/-- `raw`, `sext_16` of bits 15:0 of format C (R82, R85). -/
def rawField (w : Word) : Int := (w.extractLsb' 0 16).toInt

/-- `n`, bits 15:0 of format R (R84, R85). -/
def countField (w : Word) : Nat := (w.extractLsb' 0 16).toNat

/-- The decode procedure of R88, total on all `2^32` words. -/
def decode (w : Word) : Decoded :=
  if opField w = 1 ∧ w &&& 0x0FFF8080#32 = 0 then .command (.note (keyField w) (velField w))
  else if opField w = 2 ∧ w &&& 0x0F800000#32 = 0 then .command (.ctrl (idField w) (rawField w))
  else if opField w = 3 ∧ w &&& 0x0FFFFFFF#32 = 0 then .command .asoff
  else if opField w = 4 ∧ w &&& 0x0FFF0000#32 = 0 then .command (.render (countField w))
  else .illegal

/-- The inverse of R88. -/
def encode : Instr → Word
  | .note key vel => 0x10000000#32 ||| (key.setWidth 32 <<< 8) ||| vel.setWidth 32
  | .ctrl id raw => 0x20000000#32 ||| (id.setWidth 32 <<< 16) ||| (BitVec.ofInt 16 raw).setWidth 32
  | .asoff => 0x30000000#32
  | .render n => 0x40000000#32 ||| (BitVec.ofNat 16 n).setWidth 32

/-- The `mask` column of the opcode map, by the command whose row it is (R86). -/
def rowMask : Instr → Word
  | .note _ _ => 0xFFFF8080#32
  | .ctrl _ _ => 0xFF800000#32
  | .asoff => 0xFFFFFFFF#32
  | .render _ => 0xFFFF0000#32

/-- The `match` column of the opcode map (R86). -/
def rowMatch : Instr → Word
  | .note _ _ => 0x10000000#32
  | .ctrl _ _ => 0x20000000#32
  | .asoff => 0x30000000#32
  | .render _ => 0x40000000#32

/-- The word whose bits are the low `nbits` bits of `w`, every bit above them 0. -/
def tableWord (nbits w : Nat) : Word := BitVec.ofNat 32 (w % 2 ^ nbits)

/-- The command the decoder reads from an instruction of `nbits` bits `w`, as spec/opcode_table.json numbers them
(one 32-bit word: bit 0 of the table is bit 0 of the word). -/
def decodeTableWord (nbits w : Nat) : Option Instr :=
  match decode (tableWord nbits w) with
  | .command i => some i
  | .illegal => none

end Sys2Proof
end

