-- ==== Sys2Proof/Config.lean ====
section
/-!
DEFINITION. The configuration of the block (00_scope.md R3): what is fixed when the block is built.
The machine carries its configuration in its state and no step changes it (log entry 1), so every statement about
every state is a statement about every configuration, the OPEN control identifiers included.
Whether a configuration is legal (R4) is `Sys2Proof.Machine.configOk`, in Machine/Roms.lean.
-/

namespace Sys2Proof

/-- The parameters of R3 that a model takes as configuration (92_eei_decisions.md, last paragraph). -/
structure Config where
  /-- `CAP`, the number of voice slots. -/
  cap : Nat
  /-- `NCH`, the number of samples in a frame. -/
  nch : Nat
  /-- `SR`, the sample rate in Hz. -/
  sr : Nat
  /-- `CC_ATTACK`, the control identifier bound to the `ATTACK` register; OPEN in R3. -/
  ccAttack : Nat
  /-- `CC_DECAY`; OPEN in R3. -/
  ccDecay : Nat
  /-- `CC_SUSTAIN`; OPEN in R3. -/
  ccSustain : Nat
  /-- `CC_RELEASE`; OPEN in R3. -/
  ccRelease : Nat
  /-- `MG_NUM`, numerator of the 0.8 of the master gain. -/
  mgNum : Nat
  /-- `MG_DEN`, its denominator. -/
  mgDen : Nat
  /-- `A4_KEY`, the reference key. -/
  a4Key : Nat
  /-- `A4_HZ`, the frequency of the reference key in Hz. -/
  a4Hz : Nat
  /-- `DB_NUM`, numerator of the base 1.02 of the duration scaling. -/
  dbNum : Nat
  /-- `DB_DEN`, its denominator. -/
  dbDen : Nat
  /-- `RST_ATTACK`, the value `ATTACK` takes at reset. -/
  rstAttack : Nat
  /-- `RST_DECAY`. -/
  rstDecay : Nat
  /-- `RST_SUSTAIN`. -/
  rstSustain : Nat
  /-- `RST_RELEASE`. -/
  rstRelease : Nat
  deriving DecidableEq, Repr

namespace Config

/-- `GAIN_FRAC`, the fraction bits of a gain (R3, D9). -/
def gainFrac : Nat := 15

/-- `ONE`, the gain 1.0 (R6). -/
def one : Nat := 32768

/-- The fraction bits of a waveform value, `S1.15` (R6). -/
def waveFrac : Nat := 15

/-- The fraction bits of a sample, `S1.23` (R6). -/
def sampleFrac : Nat := 23

/-- `PHASE_W` (R3, D18). -/
def phaseW : Nat := 32

/-- The largest value of the elapsed counter, `ELAPSED_W` = 32 (R28, R105). -/
def elapsedMax : Nat := 2 ^ 32 - 1

/-- `DUR_W` (R3, D13). -/
def durW : Nat := 24

/-- `2^(15 + 15 - 23)`, the factor 128 of R172: the product of a gain and a waveform value carries 30 fraction bits
and a sample 23. -/
def mixScale : Nat := 2 ^ (gainFrac + waveFrac - sampleFrac)

/-- The default reset duration `floor(SR*16/127)` (R3, D15). -/
def linearDuration (sr : Nat) : Nat := sr * 16 / 127

/-- The defaults of R3 at `SR = 48000` (the configuration VC1 of 95_test_vectors.md).
DESIGN CHOICE (log entry 2): the four control identifiers are OPEN in R3; 16, 17, 18, 19 are the choice of the test
vectors and of this model, for the reset state only. -/
def default : Config where
  cap := 8
  nch := 2
  sr := 48000
  ccAttack := 16
  ccDecay := 17
  ccSustain := 18
  ccRelease := 19
  mgNum := 4
  mgDen := 5
  a4Key := 69
  a4Hz := 440
  dbNum := 51
  dbDen := 50
  rstAttack := linearDuration 48000
  rstDecay := linearDuration 48000
  rstSustain := 16384
  rstRelease := linearDuration 48000

end Config

end Sys2Proof
end

