-- ==== Sys2Proof/Machine/State.lean ====
section
/-!
DEFINITION. The state of the block (10_state.md), the ports as the host drives them, the reset state, and the reasons
a step can stop. Everything is plain data.
-/

namespace Sys2Proof.Machine

/-- The four stages that have a row in the duration, transition and level tables (R101 to R103). -/
inductive Sounding where
  | attack
  | decay
  | sustain
  | release
  deriving DecidableEq, Repr

/-- The eight values of the 3-bit `stage` field (R27); their encoding is `Stage.code` (Machine/Envelope.lean). The codes 5, 6 and 7 are "no stage; never written by any rule". -/
inductive Stage where
  | idle
  | sounding (st : Sounding)
  | code5
  | code6
  | code7
  deriving DecidableEq, Repr

/-- One voice slot, the nine fields of R22 to R30. -/
structure Slot where
  /-- 1: the slot is bound to a note (R22). -/
  valid : Bool
  /-- The key the slot is bound to (R23). -/
  note : Num7
  /-- The velocity of the note-on that last started the slot; read by nothing (R24). -/
  vel : Num7
  /-- The phase accumulator, in turns (R25). -/
  phase : Turns
  /-- The phase increment, in turns per sample (R26). -/
  pinc : Turns
  /-- The envelope stage (R27). -/
  stage : Stage
  /-- Samples since stage entry (R28). -/
  elapsed : BitVec 32
  /-- The gain at the last stage transition (R29). -/
  las : Gain
  /-- The gain most recently returned by advance (R30). -/
  gain : Gain
  deriving DecidableEq, Repr

/-- A free slot: every field at its reset value (R22 to R30, R137). -/
def Slot.free : Slot :=
  { valid := false, note := 0, vel := 0, phase := 0, pinc := 0, stage := .idle, elapsed := 0, las := 0, gain := 0 }

/-- The four envelope parameter registers (R31 to R34). -/
structure Params where
  /-- `ATTACK` (R31). -/
  attack : Duration
  /-- `DECAY` (R32). -/
  decay : Duration
  /-- `SUSTAIN` (R33). -/
  sustain : Gain
  /-- `RELEASE` (R34). -/
  release : Duration
  deriving DecidableEq, Repr

/-- The fields of the `STATUS` register (R36). The 16-bit word the host sees is `statusWord` (Machine/Flags.lean);
bits 7:4 read 0 and are stored nowhere. -/
structure Status where
  /-- Bit 0: the block is halted after a fatal fault. -/
  fault : Bool
  /-- Bit 1: at least one illegal word has been dropped since reset. -/
  badcmd : Bool
  /-- Bits 3:2: the cause of the fatal fault. -/
  fcode : BitVec 2
  /-- Bits 15:8: the slot that caused it. -/
  fslot : BitVec 8
  deriving DecidableEq, Repr

/-- `STATUS` after reset (R36). -/
def Status.clear : Status := { fault := false, badcmd := false, fcode := 0, fslot := 0 }

/-- What the host does at the command port and the reset input, in its order (R59, R184, R201). -/
inductive HostEvent where
  /-- It offers a command word. -/
  | word (w : Word)
  /-- It applies reset between two commands. -/
  | reset
  /-- It offers `w` and applies reset while `w` is running. R201 leaves open how many frames of a RENDER had been
  emitted: `ticks` is that free choice, and `inFlight` says whether the tick that was cut short had already taken its
  input frame (log entry 13). -/
  | resetDuring (w : Word) (ticks : Nat) (inFlight : Bool)
  deriving DecidableEq, Repr

/-- Where a RENDER waits for the host (R56, R57, R218): `left` sample ticks have not begun, and `held` is the frame of
the last tick if the host has not accepted it yet. -/
structure RenderWait where
  left : Nat
  held : Option Frame
  deriving DecidableEq, Repr

/-- The state: the block's own (R20), the configuration it was built for (R3), the host's side of the four ports, and
the place where a running RENDER waits for the host. -/
structure State where
  /-- The configuration (R3); no step changes it. -/
  cfg : Config
  /-- The voice-slot file, `slot[0]` first (R21). -/
  slots : List Slot
  /-- The envelope parameter registers (R31 to R34). -/
  params : Params
  /-- `STATUS` (R36). -/
  status : Status
  /-- The RENDER that waits for the host in the middle of its ticks, if one does (R218). -/
  wait : Option RenderWait
  /-- What the host does at the command port and the reset input from now on (R59). -/
  port : List HostEvent
  /-- The input frames the host supplies from now on (R56). -/
  framesIn : List Frame
  /-- How many more output frames the host accepts; `none`: as many as come (R57, R218). -/
  outRoom : Option Nat
  /-- The output frames emitted so far, the first one first (R57). -/
  framesOut : List Frame
  deriving DecidableEq, Repr

/-- Why a step stops. -/
inductive Fault where
  /-- Raised by `step` alone, on a halted block (`STATUS.FAULT = 1`) whose host applies no further reset: the stuck
  state of R182. Safe: the model stops where the block takes nothing more. -/
  | halted
  deriving DecidableEq, Repr

/-- Why a step has no meaning. -/
inductive Refusal where
  /-- An instruction whose meaning is not written yet; raised by `exec` alone, and by no arm of this model. Safe. -/
  | notModelled (mnemonic : String)
  /-- Raised by `step` alone, on a configuration that breaks R4 ("a model refuses a configuration that breaks one").
  Safe: there is no such block. -/
  | badConfiguration
  deriving DecidableEq, Repr

namespace State

/-- The state with another slot file. -/
def withSlots (s : State) (x : List Slot) : State := { s with slots := x }

/-- The state with other envelope parameters. -/
def withParams (s : State) (x : Params) : State := { s with params := x }

/-- The state with another `STATUS`. -/
def withStatus (s : State) (x : Status) : State := { s with status := x }

/-- The state with another RENDER position. -/
def withWait (s : State) (x : Option RenderWait) : State := { s with wait := x }

/-- The state with another future of the command port. -/
def withPort (s : State) (x : List HostEvent) : State := { s with port := x }

/-- The state with another future of the input frame stream. -/
def withFramesIn (s : State) (x : List Frame) : State := { s with framesIn := x }

/-- The state with another count of output frames the host still accepts. -/
def withOutRoom (s : State) (x : Option Nat) : State := { s with outRoom := x }

/-- The state with another history of output frames. -/
def withFramesOut (s : State) (x : List Frame) : State := { s with framesOut := x }

end State

/-- The parameter registers at reset (R31 to R34, R200). -/
def Params.ofReset (c : Config) : Params :=
  { attack := BitVec.ofNat 24 c.rstAttack
    decay := BitVec.ofNat 24 c.rstDecay
    sustain := BitVec.ofNat 16 c.rstSustain
    release := BitVec.ofNat 24 c.rstRelease }

/-- The block of configuration `c` right after reset (R200), with nothing at its ports: the host offers no word and
supplies no frame, nothing has been emitted, and the host accepts every output frame (log entries 7, 9, 10). -/
def State.resetOf (c : Config) : State :=
  { cfg := c
    slots := List.replicate c.cap Slot.free
    params := Params.ofReset c
    status := Status.clear
    wait := none
    port := []
    framesIn := []
    outRoom := none
    framesOut := [] }

/-- The reset state of the default configuration (R3, R200; log entry 2). -/
def State.reset : State := State.resetOf Config.default

end Sys2Proof.Machine
end

