-- ==== Sys2Proof/Machine/Flags.lean ====
section
/-!
DEFINITION. The `STATUS` register: its word, and the two ways its flags are set (R36, R58, R181, R183).
There are no condition codes.
-/

namespace Sys2Proof.Machine

/-- The word on `status_o[15:0]` (R36, R58): bit 0 `FAULT`, bit 1 `BADCMD`, bits 3:2 `FCODE`, bits 7:4 zero,
bits 15:8 `FSLOT`. -/
def statusWord (st : Status) : BitVec 16 :=
  st.fslot ++ 0#4 ++ st.fcode ++ BitVec.ofBool st.badcmd ++ BitVec.ofBool st.fault

/-- The line `fault_o`, a level equal to `STATUS.FAULT` (R58, R184). -/
def faultLine (st : Status) : Bool := (statusWord st).getLsbD 0

/-- `STATUS` after `raise InvalidStage(i)`: `FAULT <- 1`, `FCODE <- 1`, `FSLOT <- i` (R181). -/
def Status.invalidStage (st : Status) (i : Nat) : Status :=
  { st with fault := true, fcode := 1, fslot := BitVec.ofNat 8 i }

/-- `STATUS` after an illegal word: `BADCMD <- 1` (R183). -/
def Status.illegalCommand (st : Status) : Status := { st with badcmd := true }

end Sys2Proof.Machine
end

