-- ==== Sys2Proof/Machine/Roms.lean ====
section
/-!
DEFINITION. The four ROMs (20_memory.md R51 to R54) and the test of R4 for a legal configuration.
`PINC`, `DUR` and `SUS` are computed from their defining formulas in exact integers, for every configuration;
`WAVE` is the printed table (93_implementation_defined.md G3: the printed tables "are what a model should use").
-/

namespace Sys2Proof.Machine

/-- The largest `m < 2^bits` above `base` that passes `ok`, for an `ok` that holds up to some number and fails beyond
it: one bit at a time, the highest first. -/
def greatest (ok : Nat → Bool) : Nat → Nat → Nat
  | 0, base => base
  | bits + 1, base => greatest ok bits (if ok (base + 2 ^ bits) then base + 2 ^ bits else base)

/-- The 12th power of `2 * 2^32 * A4_HZ * 2^(k/12)`: the numerator of `(2x)^12`, where
`x = 2^32 * f(k) / SR` is the real number that `PINC[k]` rounds (R52). -/
def pincNum (c : Config) (k : Nat) : Nat := (2 * 2 ^ 32 * c.a4Hz) ^ 12 * 2 ^ k

/-- The denominator of `(2x)^12`: `SR^12 * 2^A4_KEY` (R52). -/
def pincDen (c : Config) : Nat := c.sr ^ 12 * 2 ^ c.a4Key

/-- `floor(2x)`: the largest `m` with `m^12 * pincDen <= pincNum`. -/
def pincHalves (c : Config) (k : Nat) : Nat :=
  greatest (fun m => Nat.ble (m ^ 12 * pincDen c) (pincNum c k)) ((pincNum c k).log2 / 12 + 1) 0

/-- `rne(x)` (R8, R52): the nearest integer, a tie going to the even one. With `m = floor(2x)`: if `m` is even the
fraction of `x` is below one half; if `m` is odd it is at least one half, and exactly one half when `2x = m`. -/
def pincRounded (c : Config) (k : Nat) : Nat :=
  let m := pincHalves c k
  if m % 2 = 0 then m / 2
  else if m ^ 12 * pincDen c = pincNum c k ∧ m / 2 % 2 = 0 then m / 2
  else m / 2 + 1

/-- `PINC[k]`: `rne(2^32 * f(k) / SR) mod 2^32` with `f(k) = A4_HZ * 2^((k - A4_KEY)/12)` (R52). -/
def pinc (c : Config) (k : Nat) : Turns := BitVec.ofNat 32 (pincRounded c k)

/-- `floor(SR * v * DB_NUM^v / (127 * DB_DEN^v))` (R53), before it is taken as a register value. -/
def durNat (c : Config) (v : Nat) : Nat := c.sr * v * c.dbNum ^ v / (127 * c.dbDen ^ v)

/-- `DUR[v]` (R53). In a legal configuration no entry is cut by the 24 bits (R4 (e)). -/
def dur (c : Config) (v : Nat) : Duration := BitVec.ofNat 24 (durNat c v)

/-- `SUS[v] = floor(v * 32768 / 127)` (R54). -/
def sus (v : Nat) : Gain := BitVec.ofNat 16 (v * Config.one / 127)

/-- `WAVE[0..256]` as printed in R51, eight entries a row. -/
def waveQuarters : List Nat :=
  [32767, 32766, 32765, 32761, 32757, 32752, 32745, 32737] ++
  [32728, 32717, 32705, 32692, 32678, 32663, 32646, 32628] ++
  [32609, 32589, 32567, 32545, 32521, 32495, 32469, 32441] ++
  [32412, 32382, 32351, 32318, 32285, 32250, 32213, 32176] ++
  [32137, 32098, 32057, 32014, 31971, 31926, 31880, 31833] ++
  [31785, 31736, 31685, 31633, 31580, 31526, 31470, 31414] ++
  [31356, 31297, 31237, 31176, 31113, 31050, 30985, 30919] ++
  [30852, 30783, 30714, 30643, 30571, 30498, 30424, 30349] ++
  [30273, 30195, 30117, 30037, 29956, 29874, 29791, 29706] ++
  [29621, 29534, 29447, 29358, 29268, 29177, 29085, 28992] ++
  [28898, 28803, 28706, 28609, 28510, 28411, 28310, 28208] ++
  [28105, 28001, 27896, 27790, 27683, 27575, 27466, 27356] ++
  [27245, 27133, 27019, 26905, 26790, 26674, 26556, 26438] ++
  [26319, 26198, 26077, 25955, 25832, 25708, 25582, 25456] ++
  [25329, 25201, 25072, 24942, 24811, 24680, 24547, 24413] ++
  [24279, 24143, 24007, 23870, 23731, 23592, 23452, 23311] ++
  [23170, 23027, 22884, 22739, 22594, 22448, 22301, 22154] ++
  [22005, 21856, 21705, 21554, 21403, 21250, 21096, 20942] ++
  [20787, 20631, 20475, 20317, 20159, 20000, 19841, 19680] ++
  [19519, 19357, 19195, 19032, 18868, 18703, 18537, 18371] ++
  [18204, 18037, 17869, 17700, 17530, 17360, 17189, 17018] ++
  [16846, 16673, 16499, 16325, 16151, 15976, 15800, 15623] ++
  [15446, 15269, 15090, 14912, 14732, 14553, 14372, 14191] ++
  [14010, 13828, 13645, 13462, 13279, 13094, 12910, 12725] ++
  [12539, 12353, 12167, 11980, 11793, 11605, 11417, 11228] ++
  [11039, 10849, 10659, 10469, 10278, 10087, 9896, 9704] ++
  [9512, 9319, 9126, 8933, 8739, 8545, 8351, 8157] ++
  [7962, 7767, 7571, 7375, 7179, 6983, 6786, 6590] ++
  [6393, 6195, 5998, 5800, 5602, 5404, 5205, 5007] ++
  [4808, 4609, 4410, 4210, 4011, 3811, 3612, 3412] ++
  [3212, 3012, 2811, 2611, 2410, 2210, 2009, 1809] ++
  [1608, 1407, 1206, 1005, 804, 603, 402, 201] ++
  [0]

/-- Entry `i` of the printed part, `0 <= i <= 256`. -/
def waveEntry (i : Nat) : Int := (waveQuarters.getD i 0 : Nat)

/-- `WAVE[i]` for `0 <= i <= 512`: the printed entries, then `WAVE[i] = -WAVE[512 - i]` (R51). -/
def waveHalf (i : Nat) : Int := if i ≤ 256 then waveEntry i else -waveEntry (512 - i)

/-- `WAVE[i]` for `0 <= i < 1024`: beyond 512, `WAVE[i] = WAVE[1024 - i]` (R51). -/
def wave (i : Nat) : Int := if i ≤ 512 then waveHalf i else waveHalf (1024 - i)

/-- R4: the constraints (a) to (f) a configuration must meet. The last line is not in R4: the divisions of R53 and
R172 are written for a divisor above 0 (R8; log entry 4). -/
def configOk (c : Config) : Bool :=
  decide (1 ≤ c.cap ∧ c.cap ≤ 256) && decide (1 ≤ c.nch) && decide (25088 ≤ c.sr)
  && decide (c.ccAttack ≤ 127 ∧ c.ccDecay ≤ 127 ∧ c.ccSustain ≤ 127 ∧ c.ccRelease ≤ 127)
  && decide ([c.ccAttack, c.ccDecay, c.ccSustain, c.ccRelease].Nodup)
  && (List.range 128).all (fun v => decide (durNat c v < 2 ^ 24))
  && decide (c.rstAttack < 2 ^ 24 ∧ c.rstDecay < 2 ^ 24 ∧ c.rstRelease < 2 ^ 24)
  && decide (c.rstSustain ≤ 32768)
  && decide (0 < c.mgDen ∧ 0 < c.dbDen)

end Sys2Proof.Machine
end

