-- ==== Sys2Proof/Machine/Oscillator.lean ====
section
/-!
DEFINITION. The oscillator (41_oscillator.md): the waveform look-up and the phase advance.
-/

namespace Sys2Proof.Machine

/-- The index into `WAVE`: `phase.bits[31:22]`, the low 22 bits ignored (R121). -/
def waveIndex (phase : Turns) : Nat := (phase.extractLsb' 22 10).toNat

/-- The waveform value of a slot (R121). -/
def waveOf (v : Slot) : Int := wave (waveIndex v.phase)

/-- The phase step of `oscAdvance`, modulo `2^32` (R122, R123); the value returned with it is `waveOf` of the slot
before the step. -/
def stepPhase (v : Slot) : Slot := { v with phase := v.phase + v.pinc }

end Sys2Proof.Machine
end

