-- ==== Sys2Proof/Machine/Operands.lean ====
section
/-!
DEFINITION. The arithmetic primitives of R8 and R9 and the operand forms of the commands (R85, R154).
-/

namespace Sys2Proof.Machine

/-- `clamp(v, lo, hi)` (R8). -/
def clamp (v lo hi : Int) : Int := max lo (min hi v)

/-- The value of a CTRL after the clamp of R154: `clamp(raw, 0, 127)`, a number in 0..127. -/
def ctrlValue (raw : Int) : Nat := (clamp raw 0 127).toNat

/-- `lerp(a, b, e, d)` (R9), for `0 <= e < d`. -/
def lerp (a b e d : Nat) : Nat := if a ≤ b then a + (b - a) * e / d else a - (a - b) * e / d

/-- `tdiv(a, b)`, division rounding toward zero (R8): `floor(a/b)` for `a >= 0`, else `-floor((-a)/b)`. -/
def tdiv (a : Int) (b : Nat) : Int := if 0 ≤ a then ((a.toNat / b : Nat) : Int) else -(((-a).toNat / b : Nat) : Int)

/-- `sat_24(v)` as a sample (R8, R174): the clip to `S1.23`. -/
def sat24 (v : Int) : Sample := BitVec.ofInt 24 (clamp v (-8388608) 8388607)

/-- A gain as the register of 16 bits holds it; every rule that writes one writes a number in range (R7). -/
def toGain (g : Nat) : Gain := BitVec.ofNat 16 g

end Sys2Proof.Machine
end

