-- ==== Sys2Proof/Machine/Envelope.lean ====
section
/-!
DEFINITION. The ADSR envelope (40_envelope.md): initialStage, advance, release, isDone.
Each acts on one slot and reads the parameter registers as they stand at the call (R66, R111).
-/

namespace Sys2Proof.Machine

/-- The 3-bit encoding of the `stage` field (R27, D27). -/
def Stage.code : Stage → BitVec 3
  | .idle => 0
  | .sounding .attack => 1
  | .sounding .decay => 2
  | .sounding .sustain => 3
  | .sounding .release => 4
  | .code5 => 5
  | .code6 => 6
  | .code7 => 7

/-- What the 3-bit `stage` field means (R27): Idle, one of the four stages, or one of the three codes of no stage. -/
def Stage.ofCode (b : BitVec 3) : Stage :=
  if b = 0 then .idle
  else if b = 1 then .sounding .attack
  else if b = 2 then .sounding .decay
  else if b = 3 then .sounding .sustain
  else if b = 4 then .sounding .release
  else if b = 5 then .code5
  else if b = 6 then .code6
  else .code7

/-- `initialStage()` (R100). -/
def initialStage (p : Params) : Sounding :=
  if p.attack ≠ 0 then .attack else if p.decay ≠ 0 then .decay else .sustain

/-- The duration `d` of a stage (R101). -/
def duration (p : Params) : Sounding → Nat
  | .attack => p.attack.toNat
  | .decay => p.decay.toNat
  | .sustain => 0
  | .release => p.release.toNat

/-- The transition table (R103). -/
def nextStage (p : Params) : Sounding → Sounding
  | .attack => if p.decay = 0 then .sustain else .decay
  | .decay => .sustain
  | .sustain => .sustain
  | .release => .release

/-- The start level of a stage, `a` of R102. -/
def startLevel (p : Params) (las : Gain) : Sounding → Nat
  | .attack => 0
  | .decay => Config.one
  | .sustain => p.sustain.toNat
  | .release => las.toNat

/-- The end level of a stage, `b` of R102. -/
def endLevel (p : Params) : Sounding → Nat
  | .attack => Config.one
  | .decay => p.sustain.toNat
  | .sustain => p.sustain.toNat
  | .release => 0

/-- `min(elapsed + 1, 2^32 - 1)` (R105). -/
def countSample (e : BitVec 32) : BitVec 32 := BitVec.ofNat 32 (min (e.toNat + 1) Config.elapsedMax)

/-- Step 5 of advance (R105): count the sample and store the gain it returns. -/
def finishSample (g : Nat) (v : Slot) : Slot := { v with elapsed := countSample v.elapsed, gain := toGain g }

/-- The three writes of a transition (R103). -/
def enterStage (n : Sounding) (v : Slot) : Slot := { v with elapsed := 0, las := v.gain, stage := .sounding n }

/-- `advance` (R101 to R105) on a slot in stage `st`; the gain it returns is the new `gain` field (R105). -/
def advance (p : Params) (st : Sounding) (v : Slot) : Slot :=
  if duration p st ≤ v.elapsed.toNat then
    if nextStage p st = st then finishSample (endLevel p st) v
    else finishSample (startLevel p v.gain (nextStage p st)) (enterStage (nextStage p st) v)
  else finishSample (lerp (startLevel p v.las st) (endLevel p st) v.elapsed.toNat (duration p st)) v

/-- `release` (R107). -/
def releaseSlot (p : Params) (v : Slot) : Slot :=
  { v with stage := .sounding .release, las := v.gain, elapsed := 0, gain := if p.release = 0 then 0 else v.gain }

/-- `isDone` (R108). -/
def isDone (v : Slot) : Bool := decide (v.gain = 0 ∧ v.stage = .sounding .release)

end Sys2Proof.Machine
end

