-- ==== Sys2Proof/Machine/Pool.lean ====
section
/-!
DEFINITION. The voice pool (42_voicepool.md): find, allocate, reclaim, releaseAll.
-/

namespace Sys2Proof.Machine

/-- `find(key)`: the lowest active slot bound to `key` (R132). -/
def find (key : Num7) (slots : List Slot) : Option Nat := slots.findIdx? (fun v => v.valid && v.note == key)

/-- The lowest free slot (R134). -/
def firstFree (slots : List Slot) : Option Nat := slots.findIdx? (fun v => !v.valid)

/-- Bind a slot to a key: `valid <- 1`, `note <- key` (R134). -/
def bindSlot (key : Num7) (v : Slot) : Slot := { v with valid := true, note := key }

/-- `allocate(key)` (R134): the slot it returns, with the slot file as it leaves it; `none` when the pool is full. -/
def allocate (key : Num7) (slots : List Slot) : Option (Nat × List Slot) :=
  match find key slots with
  | some i => some (i, slots)
  | none =>
    match firstFree slots with
    | some j => some (j, slots.modify j (bindSlot key))
    | none => none

/-- `reclaim` (R137): every field of the slot takes its reset value. -/
def reclaim (_ : Slot) : Slot := Slot.free

/-- What `releaseAll` does to one slot (R138): release it if it is active. -/
def releaseIfActive (p : Params) (v : Slot) : Slot := if v.valid then releaseSlot p v else v

/-- `releaseAll()` (R138). Each slot's release reads and writes that slot alone, so the scan is a map. -/
def releaseAll (p : Params) (slots : List Slot) : List Slot := slots.map (releaseIfActive p)

end Sys2Proof.Machine
end

