-- ==== Sys2Proof/Machine/Ops.lean ====
section
/-!
DEFINITION. The shared operations over the whole state: the frame streams, taking a fault and leaving the halted
state, and the command port.
-/

namespace Sys2Proof.Machine

/-- Whether the host accepts one more output frame (R57, R218). -/
def hasRoom (s : State) : Bool := s.outRoom != some 0

/-- `FrameOut(f)` (R57): append the frame to the output stream; the host's acceptance of one frame is used up. -/
def frameOut (f : Frame) (s : State) : State :=
  (s.withFramesOut (s.framesOut ++ [f])).withOutRoom (s.outRoom.map (· - 1))

/-- `raise InvalidStage(i)` (R181, R186): taking the block's one fatal fault. `STATUS` records it, the running RENDER
ends and the block is halted; nothing else changes, no program counter or mode is saved because there is none. -/
def raiseInvalidStage (i : Nat) (s : State) : State := s.withStatus (s.status.invalidStage i)

/-- IllegalCommand (R183): set `BADCMD`; nothing else changes. -/
def dropIllegal (s : State) : State := s.withStatus s.status.illegalCommand

/-- Reset (R200, R201), the only way out of the halted state (R187): every piece of the block's state takes its reset
value; a RENDER that waits is abandoned; the host's side of the ports is untouched, frames already emitted stay. -/
def resetBlock (s : State) : State :=
  (((s.withSlots (List.replicate s.cfg.cap Slot.free)).withParams (Params.ofReset s.cfg)).withStatus Status.clear).withWait
    none

/-- What remains of the host's events when a block that takes no word meets the next reset among them; `none` if the
host applies no reset. Words offered before it are "not consumed and not lost" (R182, R201). -/
def nextReset : List HostEvent → Option (List HostEvent)
  | [] => none
  | .reset :: rest => some rest
  | .resetDuring w _ _ :: rest => some (.word w :: rest)
  | .word w :: rest => (nextReset rest).map (.word w :: ·)

end Sys2Proof.Machine
end

