-- ==== Sys2Proof/Machine/Asoff.lean ====
section
/-!
DEFINITION. ASOFF: release every active voice (43_engine_commands.md R156).
-/

namespace Sys2Proof.Machine

/-- `ASOFF` (R156). -/
def execAsoff (s : State) : Host.Outcome State Fault Refusal := .next (s.withSlots (releaseAll s.params s.slots))

end Sys2Proof.Machine
end

