-- ==== Sys2Proof/Machine/Ctrl.lean ====
section
/-!
DEFINITION. CTRL: set one envelope parameter (43_engine_commands.md R154, R155).
-/

namespace Sys2Proof.Machine

/-- The control-id to parameter table and the write (R155); any other `id` changes nothing. -/
def writeParam (c : Config) (id : Num7) (val : Nat) (p : Params) : Params :=
  if id.toNat = c.ccAttack then { p with attack := dur c val }
  else if id.toNat = c.ccDecay then { p with decay := dur c val }
  else if id.toNat = c.ccSustain then { p with sustain := sus val }
  else if id.toNat = c.ccRelease then { p with release := dur c val }
  else p

/-- `CTRL id, raw` (R154): the value is clamped whatever `id` is, then written by R155. -/
def execCtrl (id : Num7) (raw : Int) (s : State) : Host.Outcome State Fault Refusal :=
  .next (s.withParams (writeParam s.cfg id (ctrlValue raw) s.params))

end Sys2Proof.Machine
end

