-- ==== Sys2Proof/Machine/Note.lean ====
section
/-!
DEFINITION. NOTE: note-on and note-off (43_engine_commands.md R151 to R153).
-/

namespace Sys2Proof.Machine

/-- The five writes of note-on to the slot it was given; `gain` and `las` are not written (R152). -/
def startVoice (c : Config) (p : Params) (key vel : Num7) (v : Slot) : Slot :=
  { v with vel := vel, phase := 0, pinc := pinc c key.toNat, stage := .sounding (initialStage p), elapsed := 0 }

/-- `noteOn(key, vel)` (R152); with the pool full the note is dropped and no state changes. -/
def noteOn (key vel : Num7) (s : State) : State :=
  match allocate key s.slots with
  | none => s
  | some (i, slots) => s.withSlots (slots.modify i (startVoice s.cfg s.params key vel))

/-- `noteOff(key)` (R153); a key with no slot is no error. -/
def noteOff (key : Num7) (s : State) : State :=
  match find key s.slots with
  | none => s
  | some i => s.withSlots (s.slots.modify i (releaseSlot s.params))

/-- `NOTE key, vel` (R151): velocity 0 is a note-off. -/
def execNote (key vel : Num7) (s : State) : Host.Outcome State Fault Refusal :=
  if vel = 0 then .next (noteOff key s) else .next (noteOn key vel s)

end Sys2Proof.Machine
end

