-- ==== Sys2Proof/Machine/Mixer.lean ====
section
/-!
DEFINITION. The sample tick (43_engine_commands.md R170 to R174): pre-check, voice scan, mix, and the loop of ticks
that RENDER runs.
-/

namespace Sys2Proof.Machine

/-- An active slot whose stage has no table row: Idle, 5, 6 or 7 (R106, R171). -/
def badSlot (v : Slot) : Bool :=
  v.valid && match v.stage with
    | .sounding _ => false
    | .idle => true
    | .code5 => true
    | .code6 => true
    | .code7 => true

/-- The pre-check: the lowest bad slot (R171). -/
def lowestBad (slots : List Slot) : Option Nat := slots.findIdx? badSlot

/-- One active slot in stage `st` in one tick: `advance`, then `oscAdvance`, then reclaim if done (R172, R173). -/
def tickVoice (p : Params) (st : Sounding) (v : Slot) : Slot :=
  if isDone (stepPhase (advance p st v)) then reclaim v else stepPhase (advance p st v)

/-- One slot in one tick; a free slot is not visited (R136). A slot with no table row does not come here: the
pre-check has stopped the tick (R106). -/
def tickSlot (p : Params) (v : Slot) : Slot :=
  if v.valid then
    match v.stage with
    | .sounding st => tickVoice p st v
    | .idle => v
    | .code5 => v
    | .code6 => v
    | .code7 => v
  else v

/-- What a slot adds to `ACC` in one tick: the gain `advance` returns times the waveform value before the phase step
(R122, R172). -/
def voiceProduct (p : Params) (v : Slot) : Int :=
  if v.valid then
    match v.stage with
    | .sounding st => ((advance p st v).gain.toNat : Int) * waveOf v
    | .idle => 0
    | .code5 => 0
    | .code6 => 0
    | .code7 => 0
  else 0

/-- `ACC` of one tick, the exact sum over the slots (R172). The scan is in index order, but each slot's work touches
that slot alone (R136), so the new slot file is a map and `ACC` a sum. -/
def accumulate (p : Params) (slots : List Slot) : Int := (slots.map (voiceProduct p)).sum

/-- `Y`: the sum times the master gain, rounded once toward zero (R35, R172). -/
def mixValue (c : Config) (acc : Int) : Int := tdiv (acc * c.mgNum) (c.mgDen * c.cap * Config.mixScale)

/-- The output frame: `sat_24(X[c] + Y)` on every channel (R174). -/
def mixFrame (x : Frame) (y : Int) : Frame := x.map (fun sample => sat24 (sample.toInt + y))

/-- The output frame of a tick on input frame `x`. -/
def tickFrame (s : State) (x : Frame) : Frame := mixFrame x (mixValue s.cfg (accumulate s.params s.slots))

/-- The voice scan of a tick: every slot ticked once (R172). -/
def scanVoices (s : State) : State := s.withSlots (s.slots.map (tickSlot s.params))

/-- `n` sample ticks (R157, R170): for each one the pre-check, one input frame, the voice scan, one output frame.
A bad slot halts the block and ends the command (R171). Where the host supplies no input frame, or does not accept the
output frame, the block waits in the middle of the command (R56, R218). -/
def runTicks : Nat → State → State
  | 0, s => s
  | n + 1, s =>
    match lowestBad s.slots with
    | some i => raiseInvalidStage i s
    | none =>
      match s.framesIn with
      | [] => s.withWait (some { left := n + 1, held := none })
      | x :: rest =>
        if hasRoom s then runTicks n (frameOut (tickFrame s x) (scanVoices (s.withFramesIn rest)))
        else (scanVoices (s.withFramesIn rest)).withWait (some { left := n, held := some (tickFrame s x) })

/-- Whether the host has supplied what a waiting RENDER waits for. -/
def canGoOn (r : RenderWait) (s : State) : Bool :=
  match r.held with
  | some _ => hasRoom s
  | none => r.left == 0 || !s.framesIn.isEmpty

/-- A waiting RENDER goes on: the held frame is emitted, then the remaining ticks run. -/
def goOn (r : RenderWait) (s : State) : State :=
  match r.held with
  | some f => runTicks r.left (frameOut f (s.withWait none))
  | none => runTicks r.left (s.withWait none)

end Sys2Proof.Machine
end

