-- ==== Sys2Proof/Machine/Render.lean ====
section
/-!
DEFINITION. RENDER: run sample ticks (43_engine_commands.md R157).
-/

namespace Sys2Proof.Machine

/-- `RENDER n` (R157). -/
def execRender (n : Nat) (s : State) : Host.Outcome State Fault Refusal := .next (runTicks n s)

end Sys2Proof.Machine
end

