-- ==== Sys2Proof/Machine/Dispatch.lean ====
section
/-!
DEFINITION. One arm per command: the table of R150.
-/

namespace Sys2Proof.Machine

def exec (i : Instr) (s : State) : Host.Outcome State Fault Refusal :=
  match i with
  | .note key vel => Sys2Proof.Machine.execNote key vel s
  | .ctrl id raw => Sys2Proof.Machine.execCtrl id raw s
  | .asoff => Sys2Proof.Machine.execAsoff s
  | .render n => Sys2Proof.Machine.execRender n s

end Sys2Proof.Machine
end

