-- ==== Sys2Proof/Machine/Loop.lean ====
section
/-!
DEFINITION. The command loop (43_engine_commands.md R150): what one step does with the next thing the host does.
-/

namespace Sys2Proof.Machine

/-- Execute the word just taken (R150): the command it decodes to, or IllegalCommand. -/
def takeWord (w : Word) (s : State) : Host.Outcome State Fault Refusal :=
  match decode w with
  | .command i => exec i s
  | .illegal => .next (dropIllegal s)

/-- The input frame of a tick that reset cuts short between FrameIn and FrameOut (R170, R201): it is consumed. There is
no such frame when the ticks before it ended in a fault or in waiting, or when the pre-check fails. -/
def takeInFlight (s : State) : State :=
  if s.status.fault || s.wait.isSome || (lowestBad s.slots).isSome then s else s.withFramesIn s.framesIn.tail

/-- Reset while `w` is running (R201): the command is abandoned and the block is in the reset state. Of a RENDER,
`ticks` sample ticks were complete (at most all of them), and with `inFlight` one more had taken its input frame. -/
def abandon (w : Word) (ticks : Nat) (inFlight : Bool) (s : State) : State :=
  match decode w with
  | .command (.render n) =>
    if inFlight && decide (ticks < n) then resetBlock (takeInFlight (runTicks (min ticks n) s))
    else resetBlock (runTicks (min ticks n) s)
  | .command (.note _ _) => resetBlock s
  | .command (.ctrl _ _) => resetBlock s
  | .command .asoff => resetBlock s
  | .illegal => resetBlock s

/-- A halted block (R182): it takes no word and no frame; the host's next reset leaves the halted state, and without
one the block is stuck. -/
def haltedStep (s : State) : Host.Outcome State Fault Refusal :=
  match nextReset s.port with
  | some rest => .next (resetBlock (s.withPort rest))
  | none => .fault .halted

/-- A block in the middle of a RENDER (R218): it goes on with what the host has supplied; else it takes no word, a reset
abandons the command, and without one it waits as it is. -/
def waitingStep (r : RenderWait) (s : State) : Host.Outcome State Fault Refusal :=
  if canGoOn r s then .next (goOn r s)
  else
    match nextReset s.port with
    | some rest => .next (resetBlock (s.withPort rest))
    | none => .next s

/-- A block between two commands (R150, R202): it takes the next thing the host does; with nothing offered it waits. -/
def readyStep (s : State) : Host.Outcome State Fault Refusal :=
  match s.port with
  | [] => .next s
  | .word w :: rest => takeWord w (s.withPort rest)
  | .reset :: rest => .next (resetBlock (s.withPort rest))
  | .resetDuring w ticks inFlight :: rest => .next (abandon w ticks inFlight (s.withPort rest))

/-- One step: a configuration that breaks R4 is refused; otherwise the block is halted, waits in a RENDER, or is between
two commands (R150). -/
def blockStep (s : State) : Host.Outcome State Fault Refusal :=
  if configOk s.cfg then
    if s.status.fault then haltedStep s
    else
      match s.wait with
      | some r => waitingStep r s
      | none => readyStep s
  else .refused .badConfiguration

/-- Offer a word at the front of the command port. -/
def offerWord (w : Word) (s : State) : State := s.withPort (.word w :: s.port)

end Sys2Proof.Machine
end

