-- ==== Sys2Proof/Machine/Step.lean ====
section
/-!
DEFINITION. One step of the block, and how a word is placed where the next step takes it.
-/

namespace Sys2Proof.Machine

/-- One step: one command executed completely (R5, R150), or what the block does when it takes none. -/
def step (s : State) : Host.Outcome State Fault Refusal := blockStep s

/-- The state with the instruction `w` of `nbits` bits as the next word the host offers (R59). The block fetches from
no memory: its program is the words on the command port (R37). -/
def State.withFetchWord (s : State) (nbits w : Nat) : State := offerWord (tableWord nbits w) s

end Sys2Proof.Machine
end

