-- ==== Sys2Proof/Machine/Assembler.lean ====
section
/-!
DEFINITION. The pseudo-commands and their expansions (30_encoding.md R89, R90). They are other spellings of the four
commands: their words are those of NOTE, CTRL and RENDER.
-/

namespace Sys2Proof.Machine

/-- The pseudo-commands of R90. -/
inductive Pseudo where
  | noteon (key vel : Num7)
  | noteoff (key : Num7)
  | attack (v : Int)
  | decay (v : Int)
  | sustain (v : Int)
  | release (v : Int)
  | renderz (n : Nat)
  deriving DecidableEq, Repr

/-- A command whose operands the assembler accepts (R89). -/
def assemble (i : Instr) : Option Instr := if WellFormed i then some i else none

/-- The expansion of R90; `none` where the assembler refuses: `NOTEON` with `vel = 0`, or an operand outside R85. -/
def expand (c : Config) : Pseudo → Option Instr
  | .noteon key vel => if vel = 0 then none else assemble (.note key vel)
  | .noteoff key => assemble (.note key 0)
  | .attack v => assemble (.ctrl (BitVec.ofNat 7 c.ccAttack) v)
  | .decay v => assemble (.ctrl (BitVec.ofNat 7 c.ccDecay) v)
  | .sustain v => assemble (.ctrl (BitVec.ofNat 7 c.ccSustain) v)
  | .release v => assemble (.ctrl (BitVec.ofNat 7 c.ccRelease) v)
  | .renderz n => assemble (.render n)

/-- The input frames that go with a pseudo-command: `RENDERZ n` says that the host supplies `n` frames of zeros (R90);
the others say nothing of frames. -/
def framesOf (c : Config) : Pseudo → List Frame
  | .noteon _ _ => []
  | .noteoff _ => []
  | .attack _ => []
  | .decay _ => []
  | .sustain _ => []
  | .release _ => []
  | .renderz n => List.replicate n (List.replicate c.nch 0)

/-- A frame on the suggested signals `fin_data`, `fout_data`: channel `c` in bits `[24c+23 : 24c]` (R56, R57). -/
def packFrame : Frame → Nat
  | [] => 0
  | sample :: rest => sample.toNat + 2 ^ 24 * packFrame rest

end Sys2Proof.Machine
end

