-- ==== Sys2Proof/Safety.lean ====
section
/-!
DEFINITION. The terms in which the statements are made: when a block takes a command, when it is halted, waits or is
finished; the invariants INV1 to INV6 (10_state.md R39); and what it means that two states differ in velocities only.
-/

namespace Sys2Proof.Machine

/-- The block is between two commands and takes the next word (R150, R202). -/
abbrev State.Ready (s : State) : Prop := configOk s.cfg = true ∧ s.status.fault = false ∧ s.wait = none

/-- The block is halted: a run that ends so went wrong (R182). -/
abbrev State.Halted (s : State) : Prop := s.status.fault = true

/-- The block waits in the middle of a RENDER for the host: a run that ends so is unfinished (R218). -/
abbrev State.Waiting (s : State) : Prop := s.status.fault = false ∧ s.wait ≠ none

/-- The block has executed everything the host offered: the one way a run is finished. -/
abbrev State.Finished (s : State) : Prop := s.Ready ∧ s.port = []

/-- `i` is the lowest index of a slot that passes `p`. -/
abbrev LowestSlot (p : Slot → Bool) (slots : List Slot) (i : Nat) : Prop :=
  (slots[i]?).map p = some true ∧ ∀ j ∈ List.range i, (slots[j]?).map p ≠ some true

/-- No slot passes `p`. -/
abbrev NoSlot (p : Slot → Bool) (slots : List Slot) : Prop := ∀ v ∈ slots, p v = false

/-- The slot is active and bound to `key` (R131, R132). -/
def Slot.boundTo (key : Num7) (v : Slot) : Bool := v.valid && v.note == key

/-- The slot is free (R131). -/
def Slot.isFree (v : Slot) : Bool := !v.valid

/-- The slot's stage is one of the four with a table row (R106). -/
def Stage.isSounding : Stage → Bool
  | .sounding _ => true
  | .idle => false
  | .code5 => false
  | .code6 => false
  | .code7 => false

/-- INV1 and INV5 of one slot, with what R24 and R26 say of an active one: a free slot is all zeros, an active slot is
in one of the four stages, was started with a velocity above 0 and holds the increment of its key. -/
abbrev Slot.Sound (c : Config) (v : Slot) : Prop :=
  (v.valid = false → v = Slot.free) ∧
    (v.valid = true → v.stage.isSounding = true ∧ v.vel ≠ 0 ∧ v.pinc = Machine.pinc c v.note.toNat)

/-- INV4 of one slot: its gains are at most 1.0. -/
abbrev Slot.GainsInRange (v : Slot) : Prop := v.gain.toNat ≤ 32768 ∧ v.las.toNat ≤ 32768

/-- INV2: no two active slots hold the same note. -/
abbrev DistinctNotes (slots : List Slot) : Prop := ((slots.filter (·.valid)).map (·.note)).Nodup

/-- Every frame at the ports has `NCH` samples (R56, R57). -/
abbrev State.FramesFit (s : State) : Prop :=
  (∀ f ∈ s.framesIn, f.length = s.cfg.nch) ∧ (∀ f ∈ s.framesOut, f.length = s.cfg.nch) ∧
    ∀ r ∈ s.wait, ∀ f ∈ r.held, f.length = s.cfg.nch

/-- What every reachable state has of INV6: an active slot in Release at gain 0 has not been through a sample tick since its
release, so its count is 0. With it INV6 holds of the slot exactly when `las` or `RELEASE` is 0 (log entry 15). -/
abbrev Slot.JustReleased (v : Slot) : Prop :=
  v.valid = true → v.stage = .sounding .release → v.gain = 0 → v.elapsed = 0

/-- INV6 as R39 writes it: an active slot in Release at gain 0 is reclaimed by the next sample tick. The rules of `advance`
keep it except where `RELEASE` is raised before that tick (log entry 15). -/
abbrev State.Inv6 (s : State) : Prop :=
  ∀ v ∈ s.slots, v.valid = true → v.stage = .sounding .release → v.gain = 0 → tickSlot s.params v = Slot.free

/-- The invariant of the reachable states: a legal configuration (R4), `CAP` slots (R21, INV3), INV1, INV2, INV4, INV5
(R39), of INV6 what the rules of `advance` keep, no fatal fault recorded (INV5: InvalidStage is never raised), and frames of
`NCH` samples. -/
structure State.Inv (s : State) : Prop where
  config : configOk s.cfg = true
  slotCount : s.slots.length = s.cfg.cap
  sound : ∀ v ∈ s.slots, v.Sound s.cfg
  distinct : DistinctNotes s.slots
  gains : ∀ v ∈ s.slots, v.GainsInRange
  justReleased : ∀ v ∈ s.slots, v.JustReleased
  sustain : s.params.sustain.toNat ≤ 32768
  noFault : s.status.fault = false ∧ s.status.fcode = 0 ∧ s.status.fslot = 0
  frames : s.FramesFit

/-- The slot with its velocity forgotten. -/
def Slot.forgetVel (v : Slot) : Slot := { v with vel := 0 }

/-- The state with every velocity forgotten. -/
def State.forgetVel (s : State) : State := s.withSlots (s.slots.map Slot.forgetVel)

/-- Two commands that differ at most in a velocity that is above 0 in both. -/
def sameButVel : Instr → Instr → Prop
  | .note k v, .note k' v' => k = k' ∧ (v = 0 ↔ v' = 0)
  | .note _ _, _ => False
  | .ctrl a b, j => j = .ctrl a b
  | .asoff, j => j = .asoff
  | .render n, j => j = .render n

/-- One call of `advance` on a slot in whatever stage it is (R106: a slot with no table row is left alone). -/
def advanceSlot (p : Params) (v : Slot) : Slot :=
  match v.stage with
  | .sounding st => advance p st v
  | .idle => v
  | .code5 => v
  | .code6 => v
  | .code7 => v

/-- One sample tick of the whole slot file, with the parameter registers constant (R172). -/
def tickAll (p : Params) (slots : List Slot) : List Slot := slots.map (tickSlot p)

/-- The output frame of the `k`-th tick (from 0) of a RENDER that starts in `s` and completes at least `k + 1` ticks. -/
def nthFrame (s : State) (k : Nat) : Frame :=
  mixFrame (s.framesIn.getD k []) (mixValue s.cfg (accumulate s.params ((tickAll s.params)^[k] s.slots)))

/-- Nothing the host still does is a reset. -/
abbrev OnlyWords (port : List HostEvent) : Prop := nextReset port = none

/-- The slot that a NOTE writes, if any: the one bound to the key, else, for a note-on, the lowest free one (R134, R153). -/
def noteTarget (key vel : Num7) (slots : List Slot) : Option Nat :=
  match find key slots with
  | some i => some i
  | none => if vel = 0 then none else firstFree slots

/-- What an outcome leaves, if it is a next state. -/
def nextState? : Host.Outcome State Fault Refusal → Option State
  | .next s => some s
  | .fault _ => none
  | .refused _ => none

end Sys2Proof.Machine
end

