-- ==== Sys2Proof/Certificates/Slice0/Obligations.lean ====
section
/-!
DEFINITION. The statements for the provers. Each docstring names the rules of spec/ it comes from, and says so where a
clause is the model's own choice. The parameters of the block (R3) are part of the state, so a statement about every
state holds for every configuration.
-/

open Sys2Proof Sys2Proof.Machine

/-! ### Encoding -/

/-- The worked encodings of 30_encoding.md section 5, and its illegal words. -/
def Obligations.WorkedWordsDecode : Prop :=
  decode 0x10004540#32 = .command (.note 69 64) ∧ decode 0x10004500#32 = .command (.note 69 0) ∧
  decode 0x10007F7F#32 = .command (.note 127 127) ∧ decode 0x20100000#32 = .command (.ctrl 16 0) ∧
  decode 0x201200C8#32 = .command (.ctrl 18 200) ∧ decode 0x2010FFFB#32 = .command (.ctrl 16 (-5)) ∧
  decode 0x30000000#32 = .command .asoff ∧ decode 0x40000080#32 = .command (.render 128) ∧
  decode 0x40000000#32 = .command (.render 0) ∧
  decode 0x00000000#32 = .illegal ∧ decode 0x50000000#32 = .illegal ∧ decode 0x10008000#32 = .illegal ∧
  decode 0x10000080#32 = .illegal ∧ decode 0x20800000#32 = .illegal ∧ decode 0x30000001#32 = .illegal ∧
  decode 0x40010000#32 = .illegal

/-- R88: `decode(encode(c)) = c` for every command with its fields in range. -/
def Obligations.DecodeOfEncodeIsTheCommand : Prop :=
  ∀ i : Instr, WellFormed i = true → decode (encode i) = .command i

/-- R88: `encode(decode(w)) = w` for every legal word, and what a word decodes to is in range. -/
def Obligations.EncodeOfDecodeIsTheWord : Prop :=
  ∀ (w : Word) (i : Instr), decode w = .command i → encode i = w ∧ WellFormed i = true

/-- R86: a word is the command of a row exactly when `w AND mask = match`; a word of no row is illegal, and every word
whose opcode is 0 or 5..15 is such a word; no word is of two rows. -/
def Obligations.DecodeFollowsTheOpcodeMap : Prop :=
  ∀ w : Word,
    ((∃ key vel, decode w = .command (.note key vel)) ↔ w &&& 0xFFFF8080#32 = 0x10000000#32) ∧
    ((∃ id raw, decode w = .command (.ctrl id raw)) ↔ w &&& 0xFF800000#32 = 0x20000000#32) ∧
    (decode w = .command .asoff ↔ w &&& 0xFFFFFFFF#32 = 0x30000000#32) ∧
    ((∃ n, decode w = .command (.render n)) ↔ w &&& 0xFFFF0000#32 = 0x40000000#32) ∧
    (decode w = .illegal ↔
      w &&& 0xFFFF8080#32 ≠ 0x10000000#32 ∧ w &&& 0xFF800000#32 ≠ 0x20000000#32 ∧
      w &&& 0xFFFFFFFF#32 ≠ 0x30000000#32 ∧ w &&& 0xFFFF0000#32 ≠ 0x40000000#32) ∧
    (w.toNat / 2 ^ 28 = 0 ∨ 5 ≤ w.toNat / 2 ^ 28 → decode w = .illegal)

/-- R85: every operand is its field of the word, `raw` sign-extended from 16 bits, the others zero-extended. -/
def Obligations.OperandsAreTheirFields : Prop :=
  ∀ w : Word,
    (∀ key vel, decode w = .command (.note key vel) →
      key.toNat = w.toNat / 2 ^ 8 % 2 ^ 7 ∧ vel.toNat = w.toNat % 2 ^ 7) ∧
    (∀ id raw, decode w = .command (.ctrl id raw) →
      id.toNat = w.toNat / 2 ^ 16 % 2 ^ 7 ∧
      raw = if w.toNat % 2 ^ 16 < 2 ^ 15 then ((w.toNat % 2 ^ 16 : Nat) : Int)
        else ((w.toNat % 2 ^ 16 : Nat) : Int) - 2 ^ 16) ∧
    (∀ n, decode w = .command (.render n) → n = w.toNat % 2 ^ 16)

/-- R87: which words are illegal, and that the only effect of one is `STATUS.BADCMD <- 1` (the word is taken and
dropped). -/
def Obligations.IllegalWordsAreDropped : Prop :=
  (∀ w : Word, decode w = .illegal ↔
    w.toNat / 2 ^ 28 = 0 ∨ 5 ≤ w.toNat / 2 ^ 28 ∨
    (w.toNat / 2 ^ 28 = 1 ∧ w &&& 0x0FFF8080#32 ≠ 0) ∨ (w.toNat / 2 ^ 28 = 2 ∧ w &&& 0x0F800000#32 ≠ 0) ∨
    (w.toNat / 2 ^ 28 = 3 ∧ w &&& 0x0FFFFFFF#32 ≠ 0) ∨ (w.toNat / 2 ^ 28 = 4 ∧ w &&& 0x0FFF0000#32 ≠ 0)) ∧
  ∀ (s : State) (w : Word) (rest : List HostEvent), s.Ready → s.port = .word w :: rest → decode w = .illegal →
    step s = .next ((s.withPort rest).withStatus { s.status with badcmd := true })

/-- R183: an illegal word sets `BADCMD` and changes nothing else but that it is taken; the flag stays set through every
step that is not a reset, whatever the block does. -/
def Obligations.BadcmdIsStickyUntilReset : Prop :=
  (∀ (s : State) (w : Word) (rest : List HostEvent), s.Ready → s.port = .word w :: rest → decode w = .illegal →
    ∃ t, step s = .next t ∧ t.status.badcmd = true ∧ t = (s.withPort rest).withStatus t.status ∧
      t.status.fault = s.status.fault ∧ t.status.fcode = s.status.fcode ∧ t.status.fslot = s.status.fslot) ∧
  ∀ s t : State, step s = .next t → s.status.badcmd = true → t.status.badcmd = true ∨ ∃ u, t = resetBlock u

/-- R90: the pseudo-commands and their expansions; in a legal configuration the four parameter spellings reach their
registers' identifiers, and `RENDERZ n` comes with `n` input frames of `NCH` zeros. -/
def Obligations.PseudoCommandsExpand : Prop :=
  ∀ c : Config, configOk c = true →
    (∀ key vel, expand c (.noteon key vel) = if vel = 0 then none else some (.note key vel)) ∧
    (∀ key, expand c (.noteoff key) = some (.note key 0)) ∧
    (∀ v : Int, -32768 ≤ v → v ≤ 32767 →
      (∃ id : Num7, expand c (.attack v) = some (.ctrl id v) ∧ id.toNat = c.ccAttack) ∧
      (∃ id : Num7, expand c (.decay v) = some (.ctrl id v) ∧ id.toNat = c.ccDecay) ∧
      (∃ id : Num7, expand c (.sustain v) = some (.ctrl id v) ∧ id.toNat = c.ccSustain) ∧
      (∃ id : Num7, expand c (.release v) = some (.ctrl id v) ∧ id.toNat = c.ccRelease)) ∧
    (∀ n, n ≤ 65535 → expand c (.renderz n) = some (.render n) ∧ (framesOf c (.renderz n)).length = n ∧
      ∀ f ∈ framesOf c (.renderz n), f.length = c.nch ∧ ∀ a ∈ f, a.toInt = 0) ∧
    (∀ (q : Pseudo) (i : Instr), expand c q = some i → WellFormed i = true)

/-! ### The command loop, the halted state and reset -/

/-- R150: between two commands, a step takes the next word and runs the command it decodes to; all that stands around
`exec` is that the word is taken from the port. -/
def Obligations.StepRunsTheDecodedCommand : Prop :=
  ∀ (s : State) (w : Word) (rest : List HostEvent) (i : Instr),
    s.Ready → s.port = .word w :: rest → decode w = .command i → step s = exec i (s.withPort rest)

/-- An instruction placed with `withFetchWord` (log entry 8) is what the very next step runs, and nothing else of the
state differs. -/
def Obligations.FetchWordRunsNext : Prop :=
  ∀ (s : State) (nbits w : Nat) (i : Instr),
    s.Ready → decodeTableWord nbits w = some i → step (s.withFetchWord nbits w) = exec i s

/-- With nothing offered the block waits for a word (the model's reading of R59, log entry 7). -/
def Obligations.IdleBlockWaitsForAWord : Prop :=
  ∀ s : State, s.Ready → s.port = [] → step s = .next s

/-- R182: a halted block takes no word and no frame and emits none; its status stays and `fault_o` is 1; without a reset
it is stuck, and reset is the one thing that leaves the state, with the words offered before it still there. -/
def Obligations.HaltedBlockOnlyResets : Prop :=
  (∀ s : State, configOk s.cfg = true → s.Halted → OnlyWords s.port → step s = .fault .halted) ∧
  (∀ (s : State) (words : List Word) (rest : List HostEvent), configOk s.cfg = true → s.Halted →
    s.port = words.map .word ++ .reset :: rest →
      step s = .next (resetBlock (s.withPort (words.map .word ++ rest)))) ∧
  (∀ s t : State, s.Halted → step s = .next t →
    t.status = Status.clear ∧ t.framesIn = s.framesIn ∧ t.framesOut = s.framesOut) ∧
  (∀ s : State, s.Halted → faultLine s.status = true)

/-- R200: reset gives every piece of the block's state its reset value, and the invariants hold then (INV6 speaks of slots
in Release and there is none); the defaults of the duration registers are `floor(SR*16/127)`; and a step that clears
`FAULT` or `BADCMD` is a reset. -/
def Obligations.ResetGivesEveryResetValue : Prop :=
  (∀ (s : State) (rest : List HostEvent), s.Ready → s.port = .reset :: rest →
    ∃ t, step s = .next t ∧ t.slots.length = s.cfg.cap ∧
      (∀ v ∈ t.slots, v.valid = false ∧ v.note = 0 ∧ v.vel = 0 ∧ v.phase = 0 ∧ v.pinc = 0 ∧ v.stage = .idle ∧
        v.elapsed = 0 ∧ v.las = 0 ∧ v.gain = 0) ∧
      t.params.attack.toNat = s.cfg.rstAttack ∧ t.params.decay.toNat = s.cfg.rstDecay ∧
      t.params.sustain.toNat = s.cfg.rstSustain ∧ t.params.release.toNat = s.cfg.rstRelease ∧
      statusWord t.status = 0 ∧ (∀ v ∈ t.slots, v.Sound s.cfg ∧ v.GainsInRange) ∧ DistinctNotes t.slots ∧
      t.params.sustain.toNat ≤ 32768 ∧ t.wait = none) ∧
  (Config.linearDuration 48000 = 6047 ∧ Config.linearDuration 44100 = 5555 ∧ Config.default.rstAttack = 6047 ∧ Config.default.rstDecay = 6047 ∧ Config.default.rstSustain = 16384 ∧
    Config.default.rstRelease = 6047) ∧
  (∀ s t : State, step s = .next t →
    (s.status.fault = true ∧ t.status.fault = false) ∨ (s.status.badcmd = true ∧ t.status.badcmd = false) →
    ∃ u, t = resetBlock u)

/-- R201: reset between two commands leaves the streams alone: words and frames not yet taken stay, frames already
emitted stay. That a reset is an event of the host at the command port is the model's choice (log entry 12). -/
def Obligations.ResetLeavesTheStreams : Prop :=
  ∀ (s : State) (rest : List HostEvent), s.Ready → s.port = .reset :: rest →
    ∃ t, step s = .next t ∧ t.port = rest ∧ t.framesIn = s.framesIn ∧ t.framesOut = s.framesOut ∧
      t.outRoom = s.outRoom ∧ t.cfg = s.cfg

/-- R201: reset while a command runs abandons it: the block is in the reset state all the same, the word is taken, and
of the frames of a RENDER any number up to its count has been emitted. How the free number is supplied is the model's
choice (log entry 13). -/
def Obligations.ResetDuringACommandAbandonsIt : Prop :=
  ∀ (s : State) (w : Word) (ticks : Nat) (inFlight : Bool) (rest : List HostEvent), s.Ready →
    s.port = .resetDuring w ticks inFlight :: rest →
    ∃ t, step s = .next t ∧ t.slots = List.replicate s.cfg.cap Slot.free ∧ t.params = Params.ofReset s.cfg ∧
      t.status = Status.clear ∧ t.wait = none ∧ t.port = rest ∧ t.cfg = s.cfg ∧
      (∃ emitted, t.framesOut = s.framesOut ++ emitted ∧
        (∀ n, decode w = .command (.render n) → emitted.length ≤ min ticks n) ∧
        ((∀ n, decode w ≠ .command (.render n)) → emitted = [] ∧ t.framesIn = s.framesIn)) ∧
      t.framesIn <:+ s.framesIn

/-- R39: the reset state of every legal configuration meets the invariant, the default one among them. -/
def Obligations.ResetStateMeetsTheInvariant : Prop :=
  (∀ c : Config, configOk c = true → (State.resetOf c).Inv) ∧ State.reset.Inv

/-- R39: every step keeps the invariant: INV1, INV2, INV3, INV4, INV5, of INV6 that an active slot in Release at gain 0 has
`elapsed` 0 (the rest of INV6: DoneSlotsAreReclaimedUnlessReleaseIsRaised), a legal configuration, no fatal fault, frames of
`NCH` samples. -/
def Obligations.EveryStepKeepsTheInvariant : Prop :=
  ∀ s t : State, s.Inv → step s = .next t → t.Inv

/-- R39 INV5, R181: from a state that meets the invariant no number of steps stops: the block is never halted, nothing
is refused, whatever words and frames the host supplies and whenever it applies reset. -/
def Obligations.RunsFromTheInvariantNeverStop : Prop :=
  ∀ (k : Nat) (s : State), s.Inv → ∃ t : State, Sys2Proof.core.run k s = .next t ∧ t.status.fault = false

/-! ### Faults and the status register -/

/-- R171, R181: the pre-check finds the lowest active slot whose stage is Idle, 5, 6 or 7 before the tick does anything:
`FAULT <- 1`, `FCODE <- 1`, `FSLOT <- i`, the RENDER ends, no frame is taken or emitted, no slot and no parameter
changes, and the block is halted. Nothing else makes a command write `STATUS`, and from a state that meets the invariant a
RENDER never raises it. -/
def Obligations.InvalidStageIsPrecise : Prop :=
  (∀ (n i : Nat) (s : State), i < 256 →
    LowestSlot (fun v => v.valid && decide (v.stage = .idle ∨ v.stage = .code5 ∨ v.stage = .code6 ∨ v.stage = .code7))
      s.slots i →
    ∃ t, exec (.render (n + 1)) s = .next t ∧ t = s.withStatus t.status ∧ t.Halted ∧
      t.status.fcode = 1 ∧ t.status.fslot.toNat = i ∧ t.status.badcmd = s.status.badcmd ∧
      (statusWord t.status).toNat = 256 * i + 5 + if s.status.badcmd then 2 else 0) ∧
  (∀ (i : Instr) (s t : State), exec i s = .next t → t.status ≠ s.status →
    ∃ n k, i = .render (n + 1) ∧ LowestSlot badSlot s.slots k ∧ t = s.withStatus (s.status.invalidStage k)) ∧
  (∀ (n : Nat) (s t : State), s.Inv → exec (.render n) s = .next t → t.status = s.status)

/-- R36: where the fields of `STATUS` stand in the 16-bit word, and that bits 7:4 read 0. -/
def Obligations.StatusWordLayout : Prop :=
  ∀ st : Status,
    (statusWord st).toNat =
      (if st.fault then 1 else 0) + (if st.badcmd then 2 else 0) + 4 * st.fcode.toNat + 256 * st.fslot.toNat ∧
    (statusWord st).toNat / 16 % 16 = 0 ∧ faultLine st = st.fault

/-! ### RENDER -/

/-- R170, R172, R174: one complete tick: the frame taken, every slot ticked, `ACC` the exact sum over the slots before
the tick, `Y` its scaling rounded toward zero, `sat_24(X[c] + Y)` emitted on every channel; then the remaining ticks. -/
def Obligations.RenderRunsTickByTick : Prop :=
  (∀ s : State, exec (.render 0) s = .next s) ∧
  ∀ (n : Nat) (s : State) (x : Frame) (rest : List Frame), NoSlot badSlot s.slots → s.framesIn = x :: rest →
    s.outRoom ≠ some 0 →
    exec (.render (n + 1)) s = exec (.render n)
      { s with
        slots := s.slots.map (tickSlot s.params)
        framesIn := rest
        outRoom := s.outRoom.map (· - 1)
        framesOut := s.framesOut ++ [x.map (fun a =>
          sat24 (a.toInt + Int.tdiv ((s.slots.map (voiceProduct s.params)).sum * s.cfg.mgNum)
            (s.cfg.mgDen * s.cfg.cap * 128)))] }

/-- R157: when no active slot has a bad stage and the host supplies and accepts `n` frames, `RENDER n` completes: `n`
input frames are taken and `n` output frames emitted, the `k`-th from the `k`-th (R57); the slots are those of `n`
ticks; nothing else changes. -/
def Obligations.RenderCompletes : Prop :=
  ∀ (n : Nat) (s : State), NoSlot badSlot s.slots → n ≤ s.framesIn.length → (∀ r ∈ s.outRoom, n ≤ r) →
    exec (.render n) s = .next
      { s with
        slots := (tickAll s.params)^[n] s.slots
        framesIn := s.framesIn.drop n
        outRoom := s.outRoom.map (· - n)
        framesOut := s.framesOut ++ (List.range n).map (nthFrame s) }

/-- R157: two RENDERs with nothing between them have exactly the effect of one of the summed length (a host splits a
block so, R212); and when the first one halts the block, so does the long one, in the same state. -/
def Obligations.RenderSplits : Prop :=
  ∀ (a b : Nat) (s t : State), s.status.fault = false → s.wait = none → exec (.render a) s = .next t →
    (t.status.fault = false → t.wait = none → exec (.render (a + b)) s = exec (.render b) t) ∧
    (t.status.fault = true → exec (.render (a + b)) s = .next t)

/-- R56, R218: a RENDER that waited for an input frame, or for its output frame to be accepted, ends exactly as if the
host had supplied the frames, or the acceptance, from the start. The waiting state is the model's (log entry 9). -/
def Obligations.WaitingRenderGoesOn : Prop :=
  ∀ (n : Nat) (s t : State) (r : RenderWait), s.Ready → exec (.render n) s = .next t → t.wait = some r →
    (∀ more : List Frame, r.held = none → more ≠ [] →
      step (t.withFramesIn more) = exec (.render n) (s.withFramesIn (s.framesIn ++ more))) ∧
    (∀ more : Nat, r.held ≠ none → 0 < more →
      step (t.withOutRoom (some more)) = exec (.render n) (s.withOutRoom (s.outRoom.map (· + more))))

/-- R218: a block that waits in a RENDER takes no word: without the frame, the acceptance or a reset nothing changes;
a reset abandons the RENDER, and the words offered before it stay. -/
def Obligations.StarvedRenderWaits : Prop :=
  ∀ (s : State) (r : RenderWait), configOk s.cfg = true → s.status.fault = false → s.wait = some r →
    (r.held = none ∧ r.left ≠ 0 ∧ s.framesIn = []) ∨ (r.held ≠ none ∧ s.outRoom = some 0) →
    (OnlyWords s.port → step s = .next s) ∧
    (∀ (words : List Word) (rest : List HostEvent), s.port = words.map .word ++ .reset :: rest →
      step s = .next (resetBlock (s.withPort (words.map .word ++ rest))))

/-- The frame of RENDER (R41, R157): the configuration, the parameter registers, `BADCMD` and the port are unchanged;
`STATUS` changes only when the block halts; input frames are only taken from the front and output frames only appended,
as many as were taken but for one that is held; a slot keeps its binding, velocity and increment or becomes free, and a
free slot stays as it is. -/
def Obligations.RenderLeavesTheRestAlone : Prop :=
  ∀ (n : Nat) (s t : State), s.wait = none → exec (.render n) s = .next t →
    t.cfg = s.cfg ∧ t.params = s.params ∧ t.port = s.port ∧ t.status.badcmd = s.status.badcmd ∧
    (t.status.fault = s.status.fault → t.status = s.status ∨ s.status.fault = true) ∧
    t.slots.length = s.slots.length ∧
    (∃ taken emitted, s.framesIn = taken ++ t.framesIn ∧ t.framesOut = s.framesOut ++ emitted ∧ taken.length ≤ n ∧
      taken.length = emitted.length + if (t.wait.bind (·.held)).isSome then 1 else 0) ∧
    ∀ (j : Nat) (v : Slot), s.slots[j]? = some v → ∃ v', t.slots[j]? = some v' ∧
      (v' = Slot.free ∨ (v'.valid = v.valid ∧ v'.note = v.note ∧ v'.vel = v.vel ∧ v'.pinc = v.pinc)) ∧
      (v.valid = false → v' = v)

/-- R190 (H6): with no active slot a RENDER still runs and passes the input frames through unchanged. -/
def Obligations.IdleBlockPassesFramesThrough : Prop :=
  ∀ (n : Nat) (s : State), (∀ v ∈ s.slots, v.valid = false) → n ≤ s.framesIn.length → (∀ r ∈ s.outRoom, n ≤ r) →
    ∃ t, exec (.render n) s = .next t ∧ t.slots = s.slots ∧ t.framesIn = s.framesIn.drop n ∧
      t.framesOut = s.framesOut ++ s.framesIn.take n ∧ t.status = s.status ∧ t.params = s.params ∧ t.wait = s.wait

/-! ### NOTE -/

/-- R134, R152: note-on. The slot already bound to the key is restarted, whatever its stage; else the lowest free slot
is bound and started; else, with every slot active, nothing changes. Exactly `vel`, `phase`, `pinc`, `stage` and
`elapsed` are written (with `valid` and `note` where the slot was free); `gain` and `las` keep their values. -/
def Obligations.NoteOnStartsASlot : Prop :=
  ∀ (s : State) (key vel : Num7), vel ≠ 0 →
    (∀ (i : Nat) (v : Slot), LowestSlot (fun u => u.valid && u.note == key) s.slots i → s.slots[i]? = some v →
      exec (.note key vel) s = .next (s.withSlots (s.slots.set i
        { v with
          vel := vel, phase := 0, pinc := pinc s.cfg key.toNat, elapsed := 0
          stage := .sounding (if s.params.attack ≠ 0 then .attack else if s.params.decay ≠ 0 then .decay
            else .sustain) }))) ∧
    (∀ (j : Nat) (v : Slot), NoSlot (fun u => u.valid && u.note == key) s.slots →
      LowestSlot (fun u => !u.valid) s.slots j → s.slots[j]? = some v →
      exec (.note key vel) s = .next (s.withSlots (s.slots.set j
        { v with
          valid := true, note := key
          vel := vel, phase := 0, pinc := pinc s.cfg key.toNat, elapsed := 0
          stage := .sounding (if s.params.attack ≠ 0 then .attack else if s.params.decay ≠ 0 then .decay
            else .sustain) }))) ∧
    (NoSlot (fun u => u.valid && u.note == key) s.slots → (∀ u ∈ s.slots, u.valid = true) →
      exec (.note key vel) s = .next s)

/-- R107, R153: note-off. The slot bound to the key goes to Release from its present gain, with the gain snapped to 0
when `RELEASE` is 0, and is then done at once; a key with no slot changes nothing. -/
def Obligations.NoteOffReleasesTheSlot : Prop :=
  ∀ (s : State) (key : Num7),
    (∀ (i : Nat) (v : Slot), LowestSlot (fun u => u.valid && u.note == key) s.slots i → s.slots[i]? = some v →
      ∃ v' : Slot, exec (.note key 0) s = .next (s.withSlots (s.slots.set i v')) ∧
        v' = { v with
          stage := .sounding .release, las := v.gain, elapsed := 0
          gain := if s.params.release = 0 then 0 else v.gain } ∧
        (isDone v' = true ↔ s.params.release = 0 ∨ v.gain = 0)) ∧
    (NoSlot (fun u => u.valid && u.note == key) s.slots → exec (.note key 0) s = .next s)

/-- The frame of NOTE: nothing but the slot file changes, and in it only the slot of the key, or, for a note-on of a key
that has none, the lowest free slot. -/
def Obligations.NoteLeavesTheRestAlone : Prop :=
  ∀ (key vel : Num7) (s : State), ∃ t, exec (.note key vel) s = .next t ∧ t = s.withSlots t.slots ∧
    t.slots.length = s.slots.length ∧
    ∀ j, noteTarget key vel s.slots ≠ some j → t.slots[j]? = s.slots[j]?

/-- R134: no voice is stolen: a command other than RENDER leaves every active slot active and bound to its key. -/
def Obligations.NoVoiceIsStolen : Prop :=
  ∀ (i : Instr) (s t : State), (∀ n, i ≠ .render n) → exec i s = .next t →
    ∀ (j : Nat) (v : Slot), s.slots[j]? = some v → v.valid = true →
      ∃ v', t.slots[j]? = some v' ∧ v'.valid = true ∧ v'.note = v.note

/-- R24, R152 (e): velocity is stored and read by nothing: two states that differ in velocities only, given commands that
differ at most in a velocity above 0, come to two states that differ in velocities only; in particular they emit the
same frames. -/
def Obligations.VelocityIsNeverHeard : Prop :=
  ∀ (i j : Instr) (s t s' : State), s.forgetVel = t.forgetVel → sameButVel i j → exec i s = .next s' →
    ∃ t', exec j t = .next t' ∧ s'.forgetVel = t'.forgetVel

/-! ### CTRL and ASOFF -/

/-- R154, R155: in a legal configuration CTRL writes exactly the register its `id` is bound to, with the value of the
`DUR` law or of the `SUS` law at the clamped control value; any other `id` changes nothing. -/
def Obligations.CtrlWritesOneParameter : Prop :=
  ∀ (s : State) (id : Num7) (raw : Int), configOk s.cfg = true →
    ∃ (t : State) (v : Nat), exec (.ctrl id raw) s = .next t ∧ t = s.withParams t.params ∧
      (v : Int) = max 0 (min 127 raw) ∧
      (id.toNat = s.cfg.ccAttack →
        t.params.attack.toNat = s.cfg.sr * v * s.cfg.dbNum ^ v / (127 * s.cfg.dbDen ^ v) ∧
        t.params = { s.params with attack := t.params.attack }) ∧
      (id.toNat = s.cfg.ccDecay →
        t.params.decay.toNat = s.cfg.sr * v * s.cfg.dbNum ^ v / (127 * s.cfg.dbDen ^ v) ∧
        t.params = { s.params with decay := t.params.decay }) ∧
      (id.toNat = s.cfg.ccSustain →
        t.params.sustain.toNat = v * 32768 / 127 ∧ t.params = { s.params with sustain := t.params.sustain }) ∧
      (id.toNat = s.cfg.ccRelease →
        t.params.release.toNat = s.cfg.sr * v * s.cfg.dbNum ^ v / (127 * s.cfg.dbDen ^ v) ∧
        t.params = { s.params with release := t.params.release }) ∧
      (id.toNat ∉ [s.cfg.ccAttack, s.cfg.ccDecay, s.cfg.ccSustain, s.cfg.ccRelease] → t = s)

/-- R138, R156: ASOFF releases every active slot from its own present gain, whatever its stage, and frees none; a free
slot and everything outside the slot file are unchanged. -/
def Obligations.AsoffReleasesEveryActiveSlot : Prop :=
  ∀ s : State, ∃ t, exec .asoff s = .next t ∧ t = s.withSlots t.slots ∧ t.slots.length = s.slots.length ∧
    (∀ (j : Nat) (v : Slot), s.slots[j]? = some v → v.valid = true →
      t.slots[j]? = some { v with
        stage := .sounding .release, las := v.gain, elapsed := 0
        gain := if s.params.release = 0 then 0 else v.gain }) ∧
    (∀ (j : Nat) (v : Slot), s.slots[j]? = some v → v.valid = false → t.slots[j]? = some v)

/-- R150: no command but RENDER takes or emits a frame, and none of the others writes `STATUS`, waits, touches the port
or changes the configuration; a NOTE or ASOFF changes no parameter register and a CTRL no slot. -/
def Obligations.OnlyRenderMovesFrames : Prop :=
  ∀ (i : Instr) (s : State), (∀ n, i ≠ .render n) →
    ∃ t, exec i s = .next t ∧ t = (s.withSlots t.slots).withParams t.params ∧
      ((∃ id raw, i = .ctrl id raw) → t.slots = s.slots) ∧
      ((∀ id raw, i ≠ .ctrl id raw) → t.params = s.params)

/-- R3: no step changes the configuration, whatever the host does. -/
def Obligations.ConfigurationNeverChanges : Prop :=
  ∀ s t : State, step s = .next t → t.cfg = s.cfg

/-! ### The envelope -/

/-- R9: the interpolation: the step taken from `a` toward `b` is the floor of the exact one, with the four facts (i) to
(iv), and a falling ramp that starts above 0 stays at 1 or more. -/
def Obligations.LerpLaws : Prop :=
  ∀ a b e d : Nat, a ≤ 32768 → b ≤ 32768 → e < d →
    (a ≤ b → a ≤ lerp a b e d ∧ (lerp a b e d - a) * d ≤ (b - a) * e ∧ (b - a) * e < (lerp a b e d - a + 1) * d) ∧
    (b < a → lerp a b e d ≤ a ∧ (a - lerp a b e d) * d ≤ (a - b) * e ∧ (a - b) * e < (a - lerp a b e d + 1) * d) ∧
    lerp a b 0 d = a ∧
    (∀ e', e ≤ e' → e' < d →
      (a ≤ b → lerp a b e d ≤ lerp a b e' d) ∧ (b ≤ a → lerp a b e' d ≤ lerp a b e d)) ∧
    min a b ≤ lerp a b e d ∧ lerp a b e d ≤ max a b ∧ lerp a b e d ≤ 32768 ∧
    (a ≠ b → lerp a b e d ≠ b) ∧
    (b < a → 1 ≤ lerp a b e d)

/-- R100: `initialStage`: Attack if `ATTACK` is not 0, else Decay if `DECAY` is not 0, else Sustain; never Release. -/
def Obligations.InitialStageSkipsZeroStages : Prop :=
  ∀ p : Params,
    (p.attack ≠ 0 → initialStage p = .attack) ∧
    (p.attack = 0 → p.decay ≠ 0 → initialStage p = .decay) ∧
    (p.attack = 0 → p.decay = 0 → initialStage p = .sustain) ∧
    initialStage p ≠ .release

/-- R110: the shape of an envelope with the parameters constant, call by call of `advance`, and tick by tick of an active
slot as RENDER runs it (`f` is either). From the start of an Attack of `A >= 1` samples: call `k` returns
`floor(32768*(k-1)/A)` and stays in Attack for `k <= A`; then `D = DECAY` calls in Decay fall from 32768 toward `SUSTAIN`
(none if `D = 0`, when 32768 is never returned); then every call returns `SUSTAIN` in Sustain. A note that starts in Decay
has the same Decay and Sustain. `elapsed` counts the calls of the stage and saturates (R105). -/
def Obligations.EnvelopeRisesAndSettles : Prop :=
  ∀ (p : Params) (v : Slot) (f : Slot → Slot), f = advanceSlot p ∨ (f = tickSlot p ∧ v.valid = true) →
    p.sustain.toNat ≤ 32768 → v.elapsed = 0 →
    (v.stage = .sounding .attack → 1 ≤ p.attack.toNat →
      (∀ k, 1 ≤ k → k ≤ p.attack.toNat →
        (f^[k] v).gain.toNat = 32768 * (k - 1) / p.attack.toNat ∧
        (f^[k] v).stage = .sounding .attack ∧ (f^[k] v).elapsed.toNat = k) ∧
      (∀ k, 1 ≤ k → k ≤ p.decay.toNat →
        (f^[p.attack.toNat + k] v).gain.toNat =
          32768 - (32768 - p.sustain.toNat) * (k - 1) / p.decay.toNat ∧
        (f^[p.attack.toNat + k] v).stage = .sounding .decay ∧ (f^[p.attack.toNat + k] v).elapsed.toNat = k) ∧
      (∀ k, 1 ≤ k →
        (f^[p.attack.toNat + p.decay.toNat + k] v).gain = p.sustain ∧
        (f^[p.attack.toNat + p.decay.toNat + k] v).stage = .sounding .sustain ∧
        (f^[p.attack.toNat + p.decay.toNat + k] v).elapsed.toNat = min k (2 ^ 32 - 1))) ∧
    (v.stage = .sounding .decay → 1 ≤ p.decay.toNat →
      (∀ k, 1 ≤ k → k ≤ p.decay.toNat →
        (f^[k] v).gain.toNat = 32768 - (32768 - p.sustain.toNat) * (k - 1) / p.decay.toNat ∧
        (f^[k] v).stage = .sounding .decay ∧ (f^[k] v).elapsed.toNat = k) ∧
      (∀ k, 1 ≤ k →
        (f^[p.decay.toNat + k] v).gain = p.sustain ∧ (f^[p.decay.toNat + k] v).stage = .sounding .sustain ∧
        (f^[p.decay.toNat + k] v).elapsed.toNat = min k (2 ^ 32 - 1))) ∧
    (v.stage = .sounding .sustain → ∀ k, 1 ≤ k →
      (f^[k] v).gain = p.sustain ∧ (f^[k] v).stage = .sounding .sustain ∧
      (f^[k] v).elapsed.toNat = min k (2 ^ 32 - 1))

/-- R110, R214: the release tail. A slot released at gain `g0 > 0` with `RELEASE = R >= 1` returns
`g0 - floor(g0*(k-1)/R)` at tick `k <= R`, is still active, and is free after tick `R + 1`, no sooner and no later;
released at gain 0, it is free after one tick; and with `RELEASE = 0` an active slot in Release is free after one tick,
however far its ramp had come (R111 (e)). -/
def Obligations.ReleaseTailIsExact : Prop :=
  ∀ (p : Params) (v : Slot), v.valid = true → v.stage = .sounding .release →
    (v.elapsed = 0 → v.las = v.gain → v.gain ≠ 0 → 1 ≤ p.release.toNat →
      (∀ k, 1 ≤ k → k ≤ p.release.toNat →
        ((tickSlot p)^[k] v).valid = true ∧ ((tickSlot p)^[k] v).stage = .sounding .release ∧
        ((tickSlot p)^[k] v).gain.toNat = v.gain.toNat - v.gain.toNat * (k - 1) / p.release.toNat) ∧
      (tickSlot p)^[p.release.toNat + 1] v = Slot.free) ∧
    (v.las = 0 → tickSlot p v = Slot.free) ∧
    (p.release = 0 → tickSlot p v = Slot.free)

/-- What R101 to R105 give where R39's INV6 does not look: a slot whose gain was snapped to 0 by a release at
`RELEASE = 0` and whose `RELEASE` is then raised by a CTRL before the next tick is not reclaimed by that tick; it sounds
again from `las` (log entry 15). -/
def Obligations.SnappedSlotSoundsAgainAfterCtrl : Prop :=
  ∀ (p : Params) (v : Slot), v.valid = true → v.stage = .sounding .release → v.elapsed = 0 → v.gain = 0 →
    v.las ≠ 0 → p.release ≠ 0 →
    (tickSlot p v).valid = true ∧ (tickSlot p v).gain = v.las ∧ (tickSlot p v).stage = .sounding .release

/-- R111: a parameter changed while a slot is part-way through a stage. The CTRL itself touches no slot (so a `RELEASE` set
to 0 snaps nothing); the next call of `advance` uses the registers as they now stand and the unchanged `elapsed`: (a) a
duration at or below `elapsed` ends the stage; (b) a raised duration puts the gain back along the ramp; (c) `DECAY` 0 sends
a finished Attack to Sustain, and `DECAY` means nothing to a slot in Sustain; (d) `SUSTAIN` is the end level of the Decay
ramp and the gain in Sustain; (e) with `RELEASE` 0 the next call returns 0. -/
def Obligations.ChangedParameterActsAtTheNextAdvance : Prop :=
  (∀ (id : Num7) (raw : Int) (s : State), ∃ t, exec (.ctrl id raw) s = .next t ∧ t.slots = s.slots) ∧
  ∀ (p : Params) (v : Slot), p.sustain.toNat ≤ 32768 →
    (v.stage = .sounding .attack → p.attack.toNat ≤ v.elapsed.toNat →
      (p.decay ≠ 0 → (advanceSlot p v).stage = .sounding .decay ∧ (advanceSlot p v).gain = 32768) ∧
      (p.decay = 0 → (advanceSlot p v).stage = .sounding .sustain ∧ (advanceSlot p v).gain = p.sustain)) ∧
    (v.stage = .sounding .decay → p.decay.toNat ≤ v.elapsed.toNat →
      (advanceSlot p v).stage = .sounding .sustain ∧ (advanceSlot p v).gain = p.sustain) ∧
    (v.stage = .sounding .release → p.release.toNat ≤ v.elapsed.toNat →
      (advanceSlot p v).gain = 0 ∧ (v.valid = true → tickSlot p v = Slot.free)) ∧
    (v.stage = .sounding .attack → ∀ q : Params, v.elapsed.toNat < p.attack.toNat → p.attack.toNat ≤ q.attack.toNat →
      (advanceSlot q v).gain.toNat = 32768 * v.elapsed.toNat / q.attack.toNat ∧
      (advanceSlot q v).gain.toNat ≤ (advanceSlot p v).gain.toNat ∧ (advanceSlot q v).stage = v.stage) ∧
    (v.stage = .sounding .decay → v.elapsed.toNat < p.decay.toNat →
      (advanceSlot p v).gain.toNat = 32768 - (32768 - p.sustain.toNat) * v.elapsed.toNat / p.decay.toNat ∧
      (advanceSlot p v).stage = v.stage ∧
      ∀ d : Duration, p.decay.toNat ≤ d.toNat →
        (advanceSlot p v).gain.toNat ≤ (advanceSlot { p with decay := d } v).gain.toNat) ∧
    (v.stage = .sounding .release → ∀ q : Params, v.elapsed.toNat < p.release.toNat →
      p.release.toNat ≤ q.release.toNat →
      (advanceSlot q v).gain.toNat = v.las.toNat - v.las.toNat * v.elapsed.toNat / q.release.toNat ∧
      (advanceSlot p v).gain.toNat ≤ (advanceSlot q v).gain.toNat ∧ (advanceSlot q v).stage = v.stage) ∧
    (v.stage = .sounding .sustain →
      (advanceSlot p v).gain = p.sustain ∧ (advanceSlot p v).stage = .sounding .sustain ∧
      ∀ d : Duration, advanceSlot { p with decay := d } v = advanceSlot p v)

/-- R101 to R105, R108, R109, R173: what one tick does to the stage, `elapsed`, `las` and `gain` of an active slot. It
stays in its stage: not saturated, on its ramp, or in Sustain, with `elapsed` counted up to at most `2^32 - 1` and `las` kept,
and in Release only if the gain of this tick is not 0; or a saturated Attack goes to Decay (`DECAY` not 0) or to Sustain
(`DECAY` 0), or a saturated Decay to Sustain, with `elapsed` 1 and the old gain in `las`; or a Release whose gain of this
tick is 0 is reclaimed. Which of these it is depends on the stage, the duration and `elapsed` as said in each case. -/
def Obligations.StageChangesOfATick : Prop :=
  ∀ (p : Params) (v : Slot) (st : Sounding), v.valid = true → v.stage = .sounding st →
    ((tickSlot p v).valid = true ∧ (tickSlot p v).stage = .sounding st ∧
      (tickSlot p v).elapsed.toNat = min (v.elapsed.toNat + 1) (2 ^ 32 - 1) ∧ (tickSlot p v).las = v.las ∧
      (st = .attack → v.elapsed.toNat < p.attack.toNat ∧
        (tickSlot p v).gain.toNat = lerp 0 32768 v.elapsed.toNat p.attack.toNat) ∧
      (st = .decay → v.elapsed.toNat < p.decay.toNat ∧
        (tickSlot p v).gain.toNat = lerp 32768 p.sustain.toNat v.elapsed.toNat p.decay.toNat) ∧
      (st = .sustain → (tickSlot p v).gain = p.sustain) ∧
      (st = .release → v.elapsed.toNat < p.release.toNat ∧ (tickSlot p v).gain ≠ 0 ∧
        (tickSlot p v).gain.toNat = lerp v.las.toNat 0 v.elapsed.toNat p.release.toNat)) ∨
    (st = .attack ∧ p.attack.toNat ≤ v.elapsed.toNat ∧ p.decay ≠ 0 ∧ (tickSlot p v).valid = true ∧
      (tickSlot p v).stage = .sounding .decay ∧ (tickSlot p v).elapsed = 1 ∧ (tickSlot p v).las = v.gain ∧
      (tickSlot p v).gain = 32768) ∨
    (st = .attack ∧ p.attack.toNat ≤ v.elapsed.toNat ∧ p.decay = 0 ∧ (tickSlot p v).valid = true ∧
      (tickSlot p v).stage = .sounding .sustain ∧ (tickSlot p v).elapsed = 1 ∧ (tickSlot p v).las = v.gain ∧
      (tickSlot p v).gain = p.sustain) ∨
    (st = .decay ∧ p.decay.toNat ≤ v.elapsed.toNat ∧ (tickSlot p v).valid = true ∧
      (tickSlot p v).stage = .sounding .sustain ∧ (tickSlot p v).elapsed = 1 ∧ (tickSlot p v).las = v.gain ∧
      (tickSlot p v).gain = p.sustain) ∨
    (st = .release ∧ (p.release.toNat ≤ v.elapsed.toNat ∨ lerp v.las.toNat 0 v.elapsed.toNat p.release.toNat = 0) ∧
      tickSlot p v = Slot.free)

/-! ### The oscillator, the ROMs and the mixer -/

/-- R122: `oscAdvance`: the value belongs to the phase before the step, and the phase steps modulo `2^32`; in a tick the
slot contributes the gain `advance` returns times that value (R172). -/
def Obligations.OscillatorReadsBeforeItSteps : Prop :=
  ∀ v : Slot,
    (stepPhase v).phase.toNat = (v.phase.toNat + v.pinc.toNat) % 2 ^ 32 ∧
    stepPhase v = { v with phase := (stepPhase v).phase } ∧
    waveOf v = wave (v.phase.toNat / 2 ^ 22) ∧
    ∀ (p : Params) (st : Sounding), v.valid = true → v.stage = .sounding st →
      voiceProduct p v = ((advance p st v).gain.toNat : Int) * wave (v.phase.toNat / 2 ^ 22)

/-- R123: the phase of a slot that is still active after `m` ticks is exactly `phase + m * pinc` modulo `2^32`. -/
def Obligations.PhaseAfterTicks : Prop :=
  ∀ (p : Params) (v : Slot) (m : Nat), v.valid = true → v.stage.isSounding = true →
    ((tickSlot p)^[m] v).valid = true →
    ((tickSlot p)^[m] v).phase.toNat = (v.phase.toNat + m * v.pinc.toNat) % 2 ^ 32

/-- R51: the named values, the bound and the symmetries of the waveform ROM. -/
def Obligations.WaveTableSymmetries : Prop :=
  wave 0 = 32767 ∧ wave 256 = 0 ∧ wave 512 = -32767 ∧ wave 768 = 0 ∧
  (∀ i ∈ List.range 1024, (wave i).natAbs ≤ 32767 ∧ wave ((1024 - i) % 1024) = wave i ∧
    wave ((i + 512) % 1024) = -wave i) ∧
  (∀ i ∈ List.range 257, wave (512 - i) = -wave i)

/-- R51: `WAVE[i]` is the integer nearest to `32767 * cos(2π * i / 1024)`, with no tie; the named values and symmetries of
the table are WaveTableSymmetries. -/
def Obligations.WaveIsTheRoundedCosine : Prop :=
  ∀ i : Nat, i < 1024 → |(wave i : ℝ) - 32767 * Real.cos (2 * Real.pi * i / 1024)| < 1 / 2

/-- R52, R120: `PINC[k]` is the integer nearest to `2^32 * f(k) / SR` with `f(k) = A4_HZ * 2^((k - A4_KEY)/12)`, a tie
going to the even one, taken modulo `2^32`; for every configuration with `SR > 0` and every key. -/
def Obligations.PincIsTheNearestInteger : Prop :=
  ∀ (c : Config) (k : Nat), 0 < c.sr →
    |(pincRounded c k : ℝ) - 2 ^ 32 * (c.a4Hz * (2 : ℝ) ^ (((k : ℝ) - c.a4Key) / 12)) / c.sr| ≤ 1 / 2 ∧
    (|(pincRounded c k : ℝ) - 2 ^ 32 * (c.a4Hz * (2 : ℝ) ^ (((k : ℝ) - c.a4Key) / 12)) / c.sr| = 1 / 2 →
      Even (pincRounded c k)) ∧
    (pinc c k).toNat = pincRounded c k % 2 ^ 32

/-- R172: the exact sum and its scaling stay in their bounds when the gains do: `|ACC| <= CAP * 32768 * 32767` and
`|Y| <= floor(32768 * 32767 * MG_NUM / (MG_DEN * 128))`, which is 6710681 with the default master gain, whatever `CAP` is;
`Y(0) = 0` and `Y(-ACC) = -Y(ACC)`. -/
def Obligations.MixIsBounded : Prop :=
  ∀ (c : Config) (p : Params) (slots : List Slot), configOk c = true → slots.length = c.cap →
    p.sustain.toNat ≤ 32768 → (∀ v ∈ slots, v.GainsInRange) →
    (accumulate p slots).natAbs ≤ c.cap * 32768 * 32767 ∧
    (mixValue c (accumulate p slots)).natAbs ≤ 32768 * 32767 * c.mgNum / (c.mgDen * 128) ∧
    (c.mgNum = 4 → c.mgDen = 5 → (mixValue c (accumulate p slots)).natAbs ≤ 6710681 ∧
      (sat24 (mixValue c (accumulate p slots))).toInt = mixValue c (accumulate p slots)) ∧
    mixValue c 0 = 0 ∧ ∀ acc : Int, mixValue c (-acc) = -mixValue c acc

/-- R174: the output sample is the sum clipped to `S1.23`, on every channel of the frame with the same `Y`. -/
def Obligations.OutputIsClipped : Prop :=
  ∀ (x : Frame) (y : Int), (mixFrame x y).length = x.length ∧
    ∀ (c : Nat) (a : Sample), x[c]? = some a →
      ∃ b : Sample, (mixFrame x y)[c]? = some b ∧
        b.toInt = max (-8388608) (min 8388607 (a.toInt + y))

/-! ### The stage code, one slot in one tick, and INV6 -/

/-- R27: the encoding of the stage, the reset value 0, that no step writes the codes 5, 6 and 7, and that a tick which finds
one of them in an active slot halts the block. -/
def Obligations.StageEncoding : Prop :=
  (∀ st : Stage, Stage.ofCode st.code = st) ∧ (∀ b : BitVec 3, (Stage.ofCode b).code = b) ∧
  Stage.idle.code = 0 ∧ (Stage.sounding .attack).code = 1 ∧ (Stage.sounding .decay).code = 2 ∧
  (Stage.sounding .sustain).code = 3 ∧ (Stage.sounding .release).code = 4 ∧
  (∀ u : State, ∀ v ∈ (resetBlock u).slots, v.stage.code = 0) ∧
  (∀ s t : State, step s = .next t → ∀ (j : Nat) (v : Slot), t.slots[j]? = some v → 5 ≤ v.stage.code.toNat →
    ∃ u, s.slots[j]? = some u ∧ u.stage = v.stage) ∧
  (∀ (n : Nat) (s : State) (v : Slot), v ∈ s.slots → v.valid = true → 5 ≤ v.stage.code.toNat →
    ∃ t, exec (.render (n + 1)) s = .next t ∧ t.Halted ∧ t.status.fcode = 1 ∧ t.slots = s.slots)

/-- R170, R172, R173: one slot in one tick. A free slot is not visited. An active slot in one of the four stages gets the
fields that `advance` gives it and the stepped phase, or, if that leaves it in Release at gain 0, becomes a free slot;
`advance` writes `stage`, `elapsed`, `las` and `gain` only. -/
def Obligations.TickAdvancesStepsAndReclaims : Prop :=
  ∀ (p : Params) (v : Slot),
    (v.valid = false → tickSlot p v = v) ∧
    ∀ st : Sounding, v.valid = true → v.stage = .sounding st →
      advance p st v = { v with
        stage := (advance p st v).stage, elapsed := (advance p st v).elapsed
        las := (advance p st v).las, gain := (advance p st v).gain } ∧
      ((advance p st v).stage = .sounding .release → (advance p st v).gain = 0 → tickSlot p v = Slot.free) ∧
      ((advance p st v).stage ≠ .sounding .release ∨ (advance p st v).gain ≠ 0 →
        tickSlot p v = { advance p st v with phase := v.phase + v.pinc })

/-- INV6 (R39), as far as the rules of `advance` keep it (log entry 15). An active slot in Release at gain 0 is reclaimed by
the next tick exactly when its `las` is 0 or its Release is saturated; in a state that meets the invariant, exactly when its
`las` is 0 or `RELEASE` is 0. INV6 holds after reset and after every RENDER that ran a tick, and every step keeps it that
does not raise `RELEASE`. -/
def Obligations.DoneSlotsAreReclaimedUnlessReleaseIsRaised : Prop :=
  (∀ (p : Params) (v : Slot), v.valid = true → v.stage = .sounding .release → v.gain = 0 →
    (tickSlot p v = Slot.free ↔ v.las = 0 ∨ p.release.toNat ≤ v.elapsed.toNat)) ∧
  (∀ s : State, s.Inv → ∀ v ∈ s.slots, v.stage = .sounding .release → v.gain = 0 →
    (tickSlot s.params v = Slot.free ↔ v.las = 0 ∨ s.params.release = 0)) ∧
  (∀ u : State, (resetBlock u).Inv6) ∧
  (∀ (n : Nat) (s t : State), NoSlot badSlot s.slots → s.framesIn ≠ [] → exec (.render (n + 1)) s = .next t → t.Inv6) ∧
  (∀ s t : State, s.Inv6 → step s = .next t → t.params.release.toNat ≤ s.params.release.toNat → t.Inv6)
end

