-- ==== Sys2Proof/Laws/State.lean ====
section
/-!
SUPPORT. One lemma per field per update of the state, so that no later proof unfolds a record update.
-/

namespace Sys2Proof.Machine.State

@[simp] theorem withSlots_cfg (s : State) (x : List Slot) : (s.withSlots x).cfg = s.cfg := rfl
@[simp] theorem withSlots_slots (s : State) (x : List Slot) : (s.withSlots x).slots = x := rfl
@[simp] theorem withSlots_params (s : State) (x : List Slot) : (s.withSlots x).params = s.params := rfl
@[simp] theorem withSlots_status (s : State) (x : List Slot) : (s.withSlots x).status = s.status := rfl
@[simp] theorem withSlots_wait (s : State) (x : List Slot) : (s.withSlots x).wait = s.wait := rfl
@[simp] theorem withSlots_port (s : State) (x : List Slot) : (s.withSlots x).port = s.port := rfl
@[simp] theorem withSlots_framesIn (s : State) (x : List Slot) : (s.withSlots x).framesIn = s.framesIn := rfl
@[simp] theorem withSlots_outRoom (s : State) (x : List Slot) : (s.withSlots x).outRoom = s.outRoom := rfl
@[simp] theorem withSlots_framesOut (s : State) (x : List Slot) : (s.withSlots x).framesOut = s.framesOut := rfl
@[simp] theorem withSlots_self (s : State) : s.withSlots s.slots = s := rfl

@[simp] theorem withParams_cfg (s : State) (x : Params) : (s.withParams x).cfg = s.cfg := rfl
@[simp] theorem withParams_slots (s : State) (x : Params) : (s.withParams x).slots = s.slots := rfl
@[simp] theorem withParams_params (s : State) (x : Params) : (s.withParams x).params = x := rfl
@[simp] theorem withParams_status (s : State) (x : Params) : (s.withParams x).status = s.status := rfl
@[simp] theorem withParams_wait (s : State) (x : Params) : (s.withParams x).wait = s.wait := rfl
@[simp] theorem withParams_port (s : State) (x : Params) : (s.withParams x).port = s.port := rfl
@[simp] theorem withParams_framesIn (s : State) (x : Params) : (s.withParams x).framesIn = s.framesIn := rfl
@[simp] theorem withParams_outRoom (s : State) (x : Params) : (s.withParams x).outRoom = s.outRoom := rfl
@[simp] theorem withParams_framesOut (s : State) (x : Params) : (s.withParams x).framesOut = s.framesOut := rfl
@[simp] theorem withParams_self (s : State) : s.withParams s.params = s := rfl

@[simp] theorem withStatus_cfg (s : State) (x : Status) : (s.withStatus x).cfg = s.cfg := rfl
@[simp] theorem withStatus_slots (s : State) (x : Status) : (s.withStatus x).slots = s.slots := rfl
@[simp] theorem withStatus_params (s : State) (x : Status) : (s.withStatus x).params = s.params := rfl
@[simp] theorem withStatus_status (s : State) (x : Status) : (s.withStatus x).status = x := rfl
@[simp] theorem withStatus_wait (s : State) (x : Status) : (s.withStatus x).wait = s.wait := rfl
@[simp] theorem withStatus_port (s : State) (x : Status) : (s.withStatus x).port = s.port := rfl
@[simp] theorem withStatus_framesIn (s : State) (x : Status) : (s.withStatus x).framesIn = s.framesIn := rfl
@[simp] theorem withStatus_outRoom (s : State) (x : Status) : (s.withStatus x).outRoom = s.outRoom := rfl
@[simp] theorem withStatus_framesOut (s : State) (x : Status) : (s.withStatus x).framesOut = s.framesOut := rfl
@[simp] theorem withStatus_self (s : State) : s.withStatus s.status = s := rfl

@[simp] theorem withWait_cfg (s : State) (x : Option RenderWait) : (s.withWait x).cfg = s.cfg := rfl
@[simp] theorem withWait_slots (s : State) (x : Option RenderWait) : (s.withWait x).slots = s.slots := rfl
@[simp] theorem withWait_params (s : State) (x : Option RenderWait) : (s.withWait x).params = s.params := rfl
@[simp] theorem withWait_status (s : State) (x : Option RenderWait) : (s.withWait x).status = s.status := rfl
@[simp] theorem withWait_wait (s : State) (x : Option RenderWait) : (s.withWait x).wait = x := rfl
@[simp] theorem withWait_port (s : State) (x : Option RenderWait) : (s.withWait x).port = s.port := rfl
@[simp] theorem withWait_framesIn (s : State) (x : Option RenderWait) : (s.withWait x).framesIn = s.framesIn := rfl
@[simp] theorem withWait_outRoom (s : State) (x : Option RenderWait) : (s.withWait x).outRoom = s.outRoom := rfl
@[simp] theorem withWait_framesOut (s : State) (x : Option RenderWait) : (s.withWait x).framesOut = s.framesOut := rfl
@[simp] theorem withWait_self (s : State) : s.withWait s.wait = s := rfl

@[simp] theorem withPort_cfg (s : State) (x : List HostEvent) : (s.withPort x).cfg = s.cfg := rfl
@[simp] theorem withPort_slots (s : State) (x : List HostEvent) : (s.withPort x).slots = s.slots := rfl
@[simp] theorem withPort_params (s : State) (x : List HostEvent) : (s.withPort x).params = s.params := rfl
@[simp] theorem withPort_status (s : State) (x : List HostEvent) : (s.withPort x).status = s.status := rfl
@[simp] theorem withPort_wait (s : State) (x : List HostEvent) : (s.withPort x).wait = s.wait := rfl
@[simp] theorem withPort_port (s : State) (x : List HostEvent) : (s.withPort x).port = x := rfl
@[simp] theorem withPort_framesIn (s : State) (x : List HostEvent) : (s.withPort x).framesIn = s.framesIn := rfl
@[simp] theorem withPort_outRoom (s : State) (x : List HostEvent) : (s.withPort x).outRoom = s.outRoom := rfl
@[simp] theorem withPort_framesOut (s : State) (x : List HostEvent) : (s.withPort x).framesOut = s.framesOut := rfl
@[simp] theorem withPort_self (s : State) : s.withPort s.port = s := rfl

@[simp] theorem withFramesIn_cfg (s : State) (x : List Frame) : (s.withFramesIn x).cfg = s.cfg := rfl
@[simp] theorem withFramesIn_slots (s : State) (x : List Frame) : (s.withFramesIn x).slots = s.slots := rfl
@[simp] theorem withFramesIn_params (s : State) (x : List Frame) : (s.withFramesIn x).params = s.params := rfl
@[simp] theorem withFramesIn_status (s : State) (x : List Frame) : (s.withFramesIn x).status = s.status := rfl
@[simp] theorem withFramesIn_wait (s : State) (x : List Frame) : (s.withFramesIn x).wait = s.wait := rfl
@[simp] theorem withFramesIn_port (s : State) (x : List Frame) : (s.withFramesIn x).port = s.port := rfl
@[simp] theorem withFramesIn_framesIn (s : State) (x : List Frame) : (s.withFramesIn x).framesIn = x := rfl
@[simp] theorem withFramesIn_outRoom (s : State) (x : List Frame) : (s.withFramesIn x).outRoom = s.outRoom := rfl
@[simp] theorem withFramesIn_framesOut (s : State) (x : List Frame) : (s.withFramesIn x).framesOut = s.framesOut := rfl
@[simp] theorem withFramesIn_self (s : State) : s.withFramesIn s.framesIn = s := rfl

@[simp] theorem withOutRoom_cfg (s : State) (x : Option Nat) : (s.withOutRoom x).cfg = s.cfg := rfl
@[simp] theorem withOutRoom_slots (s : State) (x : Option Nat) : (s.withOutRoom x).slots = s.slots := rfl
@[simp] theorem withOutRoom_params (s : State) (x : Option Nat) : (s.withOutRoom x).params = s.params := rfl
@[simp] theorem withOutRoom_status (s : State) (x : Option Nat) : (s.withOutRoom x).status = s.status := rfl
@[simp] theorem withOutRoom_wait (s : State) (x : Option Nat) : (s.withOutRoom x).wait = s.wait := rfl
@[simp] theorem withOutRoom_port (s : State) (x : Option Nat) : (s.withOutRoom x).port = s.port := rfl
@[simp] theorem withOutRoom_framesIn (s : State) (x : Option Nat) : (s.withOutRoom x).framesIn = s.framesIn := rfl
@[simp] theorem withOutRoom_outRoom (s : State) (x : Option Nat) : (s.withOutRoom x).outRoom = x := rfl
@[simp] theorem withOutRoom_framesOut (s : State) (x : Option Nat) : (s.withOutRoom x).framesOut = s.framesOut := rfl
@[simp] theorem withOutRoom_self (s : State) : s.withOutRoom s.outRoom = s := rfl

@[simp] theorem withFramesOut_cfg (s : State) (x : List Frame) : (s.withFramesOut x).cfg = s.cfg := rfl
@[simp] theorem withFramesOut_slots (s : State) (x : List Frame) : (s.withFramesOut x).slots = s.slots := rfl
@[simp] theorem withFramesOut_params (s : State) (x : List Frame) : (s.withFramesOut x).params = s.params := rfl
@[simp] theorem withFramesOut_status (s : State) (x : List Frame) : (s.withFramesOut x).status = s.status := rfl
@[simp] theorem withFramesOut_wait (s : State) (x : List Frame) : (s.withFramesOut x).wait = s.wait := rfl
@[simp] theorem withFramesOut_port (s : State) (x : List Frame) : (s.withFramesOut x).port = s.port := rfl
@[simp] theorem withFramesOut_framesIn (s : State) (x : List Frame) : (s.withFramesOut x).framesIn = s.framesIn := rfl
@[simp] theorem withFramesOut_outRoom (s : State) (x : List Frame) : (s.withFramesOut x).outRoom = s.outRoom := rfl
@[simp] theorem withFramesOut_framesOut (s : State) (x : List Frame) : (s.withFramesOut x).framesOut = x := rfl
@[simp] theorem withFramesOut_self (s : State) : s.withFramesOut s.framesOut = s := rfl

@[simp] theorem resetOf_cfg (c : Config) : (resetOf c).cfg = c := rfl
@[simp] theorem resetOf_slots (c : Config) : (resetOf c).slots = List.replicate c.cap Slot.free := rfl
@[simp] theorem resetOf_params (c : Config) : (resetOf c).params = Params.ofReset c := rfl
@[simp] theorem resetOf_status (c : Config) : (resetOf c).status = Status.clear := rfl
@[simp] theorem resetOf_wait (c : Config) : (resetOf c).wait = none := rfl
@[simp] theorem resetOf_port (c : Config) : (resetOf c).port = [] := rfl
@[simp] theorem resetOf_framesIn (c : Config) : (resetOf c).framesIn = [] := rfl
@[simp] theorem resetOf_outRoom (c : Config) : (resetOf c).outRoom = none := rfl
@[simp] theorem resetOf_framesOut (c : Config) : (resetOf c).framesOut = [] := rfl

/-- A state is its nine fields. -/
theorem ext_fields {s t : State} (h0 : s.cfg = t.cfg) (h1 : s.slots = t.slots) (h2 : s.params = t.params) (h3 : s.status = t.status) (h4 : s.wait = t.wait) (h5 : s.port = t.port) (h6 : s.framesIn = t.framesIn) (h7 : s.outRoom = t.outRoom) (h8 : s.framesOut = t.framesOut) : s = t := by
  cases s; cases t; simp_all

end Sys2Proof.Machine.State
end

