-- ==== Sys2Proof/Laws/Ops.lean ====
section
/-!
SUPPORT. Spec lemmas of the shared operations: what each writes, field by field, and what each can answer.
Later proofs cite these instead of unfolding the operations.
-/

namespace Sys2Proof.Machine

/-! ### Slot operations, field by field -/

@[simp] theorem releaseSlot_valid (p : Params) (v : Slot) : (releaseSlot p v).valid = v.valid := rfl
@[simp] theorem releaseSlot_note (p : Params) (v : Slot) : (releaseSlot p v).note = v.note := rfl
@[simp] theorem releaseSlot_vel (p : Params) (v : Slot) : (releaseSlot p v).vel = v.vel := rfl
@[simp] theorem releaseSlot_phase (p : Params) (v : Slot) : (releaseSlot p v).phase = v.phase := rfl
@[simp] theorem releaseSlot_pinc (p : Params) (v : Slot) : (releaseSlot p v).pinc = v.pinc := rfl
@[simp] theorem releaseSlot_stage (p : Params) (v : Slot) : (releaseSlot p v).stage = .sounding .release := rfl
@[simp] theorem releaseSlot_elapsed (p : Params) (v : Slot) : (releaseSlot p v).elapsed = 0 := rfl
@[simp] theorem releaseSlot_las (p : Params) (v : Slot) : (releaseSlot p v).las = v.gain := rfl
@[simp] theorem releaseSlot_gain (p : Params) (v : Slot) :
    (releaseSlot p v).gain = if p.release = 0 then 0 else v.gain := rfl

@[simp] theorem finishSample_valid (g : Nat) (v : Slot) : (finishSample g v).valid = v.valid := rfl
@[simp] theorem finishSample_note (g : Nat) (v : Slot) : (finishSample g v).note = v.note := rfl
@[simp] theorem finishSample_vel (g : Nat) (v : Slot) : (finishSample g v).vel = v.vel := rfl
@[simp] theorem finishSample_phase (g : Nat) (v : Slot) : (finishSample g v).phase = v.phase := rfl
@[simp] theorem finishSample_pinc (g : Nat) (v : Slot) : (finishSample g v).pinc = v.pinc := rfl
@[simp] theorem finishSample_stage (g : Nat) (v : Slot) : (finishSample g v).stage = v.stage := rfl
@[simp] theorem finishSample_elapsed (g : Nat) (v : Slot) : (finishSample g v).elapsed = countSample v.elapsed := rfl
@[simp] theorem finishSample_las (g : Nat) (v : Slot) : (finishSample g v).las = v.las := rfl
@[simp] theorem finishSample_gain (g : Nat) (v : Slot) : (finishSample g v).gain = toGain g := rfl

@[simp] theorem enterStage_valid (n : Sounding) (v : Slot) : (enterStage n v).valid = v.valid := rfl
@[simp] theorem enterStage_note (n : Sounding) (v : Slot) : (enterStage n v).note = v.note := rfl
@[simp] theorem enterStage_vel (n : Sounding) (v : Slot) : (enterStage n v).vel = v.vel := rfl
@[simp] theorem enterStage_phase (n : Sounding) (v : Slot) : (enterStage n v).phase = v.phase := rfl
@[simp] theorem enterStage_pinc (n : Sounding) (v : Slot) : (enterStage n v).pinc = v.pinc := rfl
@[simp] theorem enterStage_stage (n : Sounding) (v : Slot) : (enterStage n v).stage = .sounding n := rfl
@[simp] theorem enterStage_elapsed (n : Sounding) (v : Slot) : (enterStage n v).elapsed = 0 := rfl
@[simp] theorem enterStage_las (n : Sounding) (v : Slot) : (enterStage n v).las = v.gain := rfl
@[simp] theorem enterStage_gain (n : Sounding) (v : Slot) : (enterStage n v).gain = v.gain := rfl

@[simp] theorem stepPhase_valid (v : Slot) : (stepPhase v).valid = v.valid := rfl
@[simp] theorem stepPhase_note (v : Slot) : (stepPhase v).note = v.note := rfl
@[simp] theorem stepPhase_vel (v : Slot) : (stepPhase v).vel = v.vel := rfl
@[simp] theorem stepPhase_phase (v : Slot) : (stepPhase v).phase = v.phase + v.pinc := rfl
@[simp] theorem stepPhase_pinc (v : Slot) : (stepPhase v).pinc = v.pinc := rfl
@[simp] theorem stepPhase_stage (v : Slot) : (stepPhase v).stage = v.stage := rfl
@[simp] theorem stepPhase_elapsed (v : Slot) : (stepPhase v).elapsed = v.elapsed := rfl
@[simp] theorem stepPhase_las (v : Slot) : (stepPhase v).las = v.las := rfl
@[simp] theorem stepPhase_gain (v : Slot) : (stepPhase v).gain = v.gain := rfl

@[simp] theorem bindSlot_valid (k : Num7) (v : Slot) : (bindSlot k v).valid = true := rfl
@[simp] theorem bindSlot_note (k : Num7) (v : Slot) : (bindSlot k v).note = k := rfl
@[simp] theorem bindSlot_gain (k : Num7) (v : Slot) : (bindSlot k v).gain = v.gain := rfl
@[simp] theorem bindSlot_las (k : Num7) (v : Slot) : (bindSlot k v).las = v.las := rfl

@[simp] theorem startVoice_valid (c : Config) (p : Params) (k u : Num7) (v : Slot) :
    (startVoice c p k u v).valid = v.valid := rfl
@[simp] theorem startVoice_note (c : Config) (p : Params) (k u : Num7) (v : Slot) :
    (startVoice c p k u v).note = v.note := rfl
@[simp] theorem startVoice_vel (c : Config) (p : Params) (k u : Num7) (v : Slot) : (startVoice c p k u v).vel = u := rfl
@[simp] theorem startVoice_phase (c : Config) (p : Params) (k u : Num7) (v : Slot) :
    (startVoice c p k u v).phase = 0 := rfl
@[simp] theorem startVoice_pinc (c : Config) (p : Params) (k u : Num7) (v : Slot) :
    (startVoice c p k u v).pinc = pinc c k.toNat := rfl
@[simp] theorem startVoice_stage (c : Config) (p : Params) (k u : Num7) (v : Slot) :
    (startVoice c p k u v).stage = .sounding (initialStage p) := rfl
@[simp] theorem startVoice_elapsed (c : Config) (p : Params) (k u : Num7) (v : Slot) :
    (startVoice c p k u v).elapsed = 0 := rfl
@[simp] theorem startVoice_las (c : Config) (p : Params) (k u : Num7) (v : Slot) :
    (startVoice c p k u v).las = v.las := rfl
@[simp] theorem startVoice_gain (c : Config) (p : Params) (k u : Num7) (v : Slot) :
    (startVoice c p k u v).gain = v.gain := rfl

/-- The 3-bit code and the stage determine each other (R27). -/
@[simp] theorem Stage.ofCode_code (st : Stage) : Stage.ofCode st.code = st := by
  cases st with
  | sounding x => cases x <;> rfl
  | _ => rfl

/-- The saturating count, as a number. -/
theorem countSample_toNat (e : BitVec 32) : (countSample e).toNat = min (e.toNat + 1) (2 ^ 32 - 1) := by
  unfold countSample Config.elapsedMax
  rw [BitVec.toNat_ofNat]
  omega

/-- A gain in the range of its register is stored as it is. -/
theorem toGain_toNat {g : Nat} (h : g < 2 ^ 16) : (toGain g).toNat = g := by
  simp only [toGain, BitVec.toNat_ofNat]
  omega

/-- What `advance` does: it stays saturated in its stage, or enters the next stage, or goes on along its ramp. -/
theorem advance_cases (p : Params) (st : Sounding) (v : Slot) :
    (duration p st ≤ v.elapsed.toNat ∧ nextStage p st = st ∧ advance p st v = finishSample (endLevel p st) v) ∨
    (duration p st ≤ v.elapsed.toNat ∧ nextStage p st ≠ st ∧
      advance p st v = finishSample (startLevel p v.gain (nextStage p st)) (enterStage (nextStage p st) v)) ∨
    (v.elapsed.toNat < duration p st ∧
      advance p st v =
        finishSample (lerp (startLevel p v.las st) (endLevel p st) v.elapsed.toNat (duration p st)) v) := by
  unfold advance
  by_cases h : duration p st ≤ v.elapsed.toNat
  · by_cases h2 : nextStage p st = st
    · exact .inl ⟨h, h2, by rw [if_pos h, if_pos h2]⟩
    · exact .inr (.inl ⟨h, h2, by rw [if_pos h, if_neg h2]⟩)
  · exact .inr (.inr ⟨by omega, by rw [if_neg h]⟩)

/-- The stages that are their own successors are Sustain and Release. -/
theorem nextStage_eq_self_iff (p : Params) (st : Sounding) : nextStage p st = st ↔ st = .sustain ∨ st = .release := by
  cases st <;> simp [nextStage]
  split <;> simp

/-- `advance` leaves the slot's binding, velocity and oscillator alone. -/
theorem advance_frame (p : Params) (st : Sounding) (v : Slot) :
    (advance p st v).valid = v.valid ∧ (advance p st v).note = v.note ∧ (advance p st v).vel = v.vel ∧
      (advance p st v).phase = v.phase ∧ (advance p st v).pinc = v.pinc := by
  obtain ⟨_, _, h⟩ | ⟨_, _, h⟩ | ⟨_, h⟩ := advance_cases p st v <;> simp [h]

@[simp] theorem advance_valid (p : Params) (st : Sounding) (v : Slot) : (advance p st v).valid = v.valid :=
  (advance_frame p st v).1
@[simp] theorem advance_note (p : Params) (st : Sounding) (v : Slot) : (advance p st v).note = v.note :=
  (advance_frame p st v).2.1
@[simp] theorem advance_vel (p : Params) (st : Sounding) (v : Slot) : (advance p st v).vel = v.vel :=
  (advance_frame p st v).2.2.1
@[simp] theorem advance_phase (p : Params) (st : Sounding) (v : Slot) : (advance p st v).phase = v.phase :=
  (advance_frame p st v).2.2.2.1
@[simp] theorem advance_pinc (p : Params) (st : Sounding) (v : Slot) : (advance p st v).pinc = v.pinc :=
  (advance_frame p st v).2.2.2.2

/-- `isDone` as a proposition. -/
theorem isDone_iff (v : Slot) : isDone v = true ↔ v.gain = 0 ∧ v.stage = .sounding .release := by simp [isDone]

/-- What a tick makes of a slot: nothing of a slot that is free or has no table row; of another, the advanced slot with
its phase stepped, or a free slot if that is done. -/
theorem tickSlot_cases (p : Params) (v : Slot) :
    (tickSlot p v = v ∧ (v.valid = false ∨ v.stage.isSounding = false)) ∨
    (∃ st, v.valid = true ∧ v.stage = .sounding st ∧ isDone (stepPhase (advance p st v)) = true ∧
      tickSlot p v = Slot.free) ∨
    (∃ st, v.valid = true ∧ v.stage = .sounding st ∧ isDone (stepPhase (advance p st v)) = false ∧
      tickSlot p v = stepPhase (advance p st v)) := by
  cases hv : v.valid
  · exact .inl ⟨by simp [tickSlot, hv], .inl rfl⟩
  · cases hs : v.stage with
    | sounding st =>
      cases hd : isDone (stepPhase (advance p st v))
      · exact .inr (.inr ⟨st, rfl, rfl, hd, by simp [tickSlot, tickVoice, hv, hs, hd]⟩)
      · exact .inr (.inl ⟨st, rfl, rfl, hd, by simp [tickSlot, tickVoice, reclaim, hv, hs, hd]⟩)
    | _ => exact .inl ⟨by simp [tickSlot, hv, hs], .inr rfl⟩

/-- A slot fails the pre-check exactly when it is active in a stage without a table row. -/
theorem badSlot_iff (v : Slot) : badSlot v = true ↔ v.valid = true ∧ v.stage.isSounding = false := by
  unfold badSlot Stage.isSounding
  cases v.stage <;> simp

/-! ### Searching the slot file -/

/-- A search by index finds the lowest slot that passes the test. -/
theorem findIdx_eq_some_iff_lowest (q : Slot → Bool) (slots : List Slot) (i : Nat) :
    slots.findIdx? q = some i ↔ LowestSlot q slots i := by
  rw [List.findIdx?_eq_some_iff_getElem]
  constructor
  · rintro ⟨h, hi, hj⟩
    refine ⟨by simp [h, hi], ?_⟩
    intro j hjm
    have hji : j < i := List.mem_range.mp hjm
    have hjl : j < slots.length := by omega
    have := hj j hji
    simpa [hjl] using this
  · rintro ⟨hi, hj⟩
    by_cases h : i < slots.length
    · refine ⟨h, by simpa [h] using hi, ?_⟩
      intro j hji
      have hjl : j < slots.length := by omega
      have := hj j (List.mem_range.mpr hji)
      simpa [hjl] using this
    · simp [h] at hi

/-- A search by index fails exactly when no slot passes the test. -/
theorem findIdx_eq_none_iff_noSlot (q : Slot → Bool) (slots : List Slot) :
    slots.findIdx? q = none ↔ NoSlot q slots := List.findIdx?_eq_none_iff

/-- `find` answers the lowest active slot bound to the key (R132). -/
theorem find_eq_some_iff (key : Num7) (slots : List Slot) (i : Nat) :
    find key slots = some i ↔ LowestSlot (Slot.boundTo key) slots i := findIdx_eq_some_iff_lowest _ _ _

theorem find_eq_none_iff (key : Num7) (slots : List Slot) : find key slots = none ↔ NoSlot (Slot.boundTo key) slots :=
  findIdx_eq_none_iff_noSlot _ _

theorem firstFree_eq_some_iff (slots : List Slot) (i : Nat) :
    firstFree slots = some i ↔ LowestSlot Slot.isFree slots i := findIdx_eq_some_iff_lowest _ _ _

theorem firstFree_eq_none_iff (slots : List Slot) : firstFree slots = none ↔ NoSlot Slot.isFree slots :=
  findIdx_eq_none_iff_noSlot _ _

theorem lowestBad_eq_some_iff (slots : List Slot) (i : Nat) : lowestBad slots = some i ↔ LowestSlot badSlot slots i :=
  findIdx_eq_some_iff_lowest _ _ _

theorem lowestBad_eq_none_iff (slots : List Slot) : lowestBad slots = none ↔ NoSlot badSlot slots :=
  findIdx_eq_none_iff_noSlot _ _

/-- What `allocate` answers (R134): the slot bound to the key, untouched; else the lowest free slot, now bound; else
nothing, with every slot active and none bound to the key. -/
theorem allocate_cases (key : Num7) (slots : List Slot) :
    (∃ i, LowestSlot (Slot.boundTo key) slots i ∧ allocate key slots = some (i, slots)) ∨
    (NoSlot (Slot.boundTo key) slots ∧ ∃ j, LowestSlot Slot.isFree slots j ∧
      allocate key slots = some (j, slots.modify j (bindSlot key))) ∨
    (NoSlot (Slot.boundTo key) slots ∧ NoSlot Slot.isFree slots ∧ allocate key slots = none) := by
  unfold allocate
  cases hf : find key slots with
  | some i => exact .inl ⟨i, (find_eq_some_iff _ _ _).mp hf, rfl⟩
  | none =>
    have h1 := (find_eq_none_iff _ _).mp hf
    cases hr : firstFree slots with
    | some j => exact .inr (.inl ⟨h1, j, (firstFree_eq_some_iff _ _).mp hr, rfl⟩)
    | none => exact .inr (.inr ⟨h1, (firstFree_eq_none_iff _).mp hr, rfl⟩)

/-! ### Operations over the state, field by field -/

@[simp] theorem frameOut_cfg (f : Frame) (s : State) : (frameOut f s).cfg = s.cfg := rfl
@[simp] theorem frameOut_slots (f : Frame) (s : State) : (frameOut f s).slots = s.slots := rfl
@[simp] theorem frameOut_params (f : Frame) (s : State) : (frameOut f s).params = s.params := rfl
@[simp] theorem frameOut_status (f : Frame) (s : State) : (frameOut f s).status = s.status := rfl
@[simp] theorem frameOut_wait (f : Frame) (s : State) : (frameOut f s).wait = s.wait := rfl
@[simp] theorem frameOut_port (f : Frame) (s : State) : (frameOut f s).port = s.port := rfl
@[simp] theorem frameOut_framesIn (f : Frame) (s : State) : (frameOut f s).framesIn = s.framesIn := rfl
@[simp] theorem frameOut_outRoom (f : Frame) (s : State) : (frameOut f s).outRoom = s.outRoom.map (· - 1) := rfl
@[simp] theorem frameOut_framesOut (f : Frame) (s : State) : (frameOut f s).framesOut = s.framesOut ++ [f] := rfl

@[simp] theorem raiseInvalidStage_eq (i : Nat) (s : State) :
    raiseInvalidStage i s = s.withStatus { s.status with fault := true, fcode := 1, fslot := BitVec.ofNat 8 i } := rfl

@[simp] theorem dropIllegal_eq (s : State) : dropIllegal s = s.withStatus { s.status with badcmd := true } := rfl

@[simp] theorem resetBlock_cfg (s : State) : (resetBlock s).cfg = s.cfg := rfl
@[simp] theorem resetBlock_slots (s : State) : (resetBlock s).slots = List.replicate s.cfg.cap Slot.free := rfl
@[simp] theorem resetBlock_params (s : State) : (resetBlock s).params = Params.ofReset s.cfg := rfl
@[simp] theorem resetBlock_status (s : State) : (resetBlock s).status = Status.clear := rfl
@[simp] theorem resetBlock_wait (s : State) : (resetBlock s).wait = none := rfl
@[simp] theorem resetBlock_port (s : State) : (resetBlock s).port = s.port := rfl
@[simp] theorem resetBlock_framesIn (s : State) : (resetBlock s).framesIn = s.framesIn := rfl
@[simp] theorem resetBlock_outRoom (s : State) : (resetBlock s).outRoom = s.outRoom := rfl
@[simp] theorem resetBlock_framesOut (s : State) : (resetBlock s).framesOut = s.framesOut := rfl

@[simp] theorem scanVoices_cfg (s : State) : (scanVoices s).cfg = s.cfg := rfl
@[simp] theorem scanVoices_slots (s : State) : (scanVoices s).slots = s.slots.map (tickSlot s.params) := rfl
@[simp] theorem scanVoices_params (s : State) : (scanVoices s).params = s.params := rfl
@[simp] theorem scanVoices_status (s : State) : (scanVoices s).status = s.status := rfl
@[simp] theorem scanVoices_wait (s : State) : (scanVoices s).wait = s.wait := rfl
@[simp] theorem scanVoices_port (s : State) : (scanVoices s).port = s.port := rfl
@[simp] theorem scanVoices_framesIn (s : State) : (scanVoices s).framesIn = s.framesIn := rfl
@[simp] theorem scanVoices_outRoom (s : State) : (scanVoices s).outRoom = s.outRoom := rfl
@[simp] theorem scanVoices_framesOut (s : State) : (scanVoices s).framesOut = s.framesOut := rfl

@[simp] theorem offerWord_eq (w : Word) (s : State) : offerWord w s = s.withPort (.word w :: s.port) := rfl

/-! ### The loop of sample ticks -/

@[simp] theorem runTicks_zero (s : State) : runTicks 0 s = s := rfl

/-- A tick that finds a bad slot halts the block (R171, R181). -/
theorem runTicks_succ_of_bad {n i : Nat} {s : State} (h : lowestBad s.slots = some i) :
    runTicks (n + 1) s = raiseInvalidStage i s := by
  rw [runTicks, h]

/-- A tick without an input frame waits (R56). -/
theorem runTicks_succ_of_starved {n : Nat} {s : State} (h : lowestBad s.slots = none) (hf : s.framesIn = []) :
    runTicks (n + 1) s = s.withWait (some { left := n + 1, held := none }) := by
  rw [runTicks, h]; simp only [hf]

/-- A tick whose output frame is accepted is complete, and the remaining ticks follow (R170). -/
theorem runTicks_succ_of_room {n : Nat} {s : State} {x : Frame} {rest : List Frame} (h : lowestBad s.slots = none)
    (hf : s.framesIn = x :: rest) (hr : hasRoom s = true) :
    runTicks (n + 1) s = runTicks n (frameOut (tickFrame s x) (scanVoices (s.withFramesIn rest))) := by
  rw [runTicks, h]; simp only [hf, hr, if_true]

/-- A tick whose output frame is not accepted waits with the frame held (R218). -/
theorem runTicks_succ_of_full {n : Nat} {s : State} {x : Frame} {rest : List Frame} (h : lowestBad s.slots = none)
    (hf : s.framesIn = x :: rest) (hr : hasRoom s = false) :
    runTicks (n + 1) s =
      (scanVoices (s.withFramesIn rest)).withWait (some { left := n, held := some (tickFrame s x) }) := by
  rw [runTicks, h]; simp only [hf, hr]; rfl

/-- What the first of `n + 1` ticks can do: halt the block, wait for an input frame, wait with its output frame held, or
complete and leave `n` ticks. -/
theorem runTicks_succ_cases (n : Nat) (s : State) :
    (∃ i, lowestBad s.slots = some i ∧ runTicks (n + 1) s = raiseInvalidStage i s) ∨
    (lowestBad s.slots = none ∧ s.framesIn = [] ∧
      runTicks (n + 1) s = s.withWait (some { left := n + 1, held := none })) ∨
    (∃ x rest, lowestBad s.slots = none ∧ s.framesIn = x :: rest ∧ hasRoom s = false ∧
      runTicks (n + 1) s =
        (scanVoices (s.withFramesIn rest)).withWait (some { left := n, held := some (tickFrame s x) })) ∨
    (∃ x rest, lowestBad s.slots = none ∧ s.framesIn = x :: rest ∧ hasRoom s = true ∧
      runTicks (n + 1) s = runTicks n (frameOut (tickFrame s x) (scanVoices (s.withFramesIn rest)))) := by
  cases hb : lowestBad s.slots with
  | some i => exact .inl ⟨i, rfl, runTicks_succ_of_bad hb⟩
  | none =>
    cases hf : s.framesIn with
    | nil => exact .inr (.inl ⟨rfl, rfl, runTicks_succ_of_starved hb hf⟩)
    | cons x rest =>
      cases hr : hasRoom s
      · exact .inr (.inr (.inl ⟨x, rest, rfl, rfl, rfl, runTicks_succ_of_full hb hf hr⟩))
      · exact .inr (.inr (.inr ⟨x, rest, rfl, rfl, rfl, runTicks_succ_of_room hb hf hr⟩))

/-! ### One step -/

/-- A ready block takes the next thing the host does. -/
theorem step_of_ready {s : State} (h : s.Ready) : step s = readyStep s := by
  obtain ⟨hc, hf, hw⟩ := h
  simp [step, blockStep, hc, hf, hw]

/-- A halted block. -/
theorem step_of_halted {s : State} (hc : configOk s.cfg = true) (hf : s.status.fault = true) :
    step s = haltedStep s := by
  simp [step, blockStep, hc, hf]

/-- A block that waits in a RENDER. -/
theorem step_of_wait {s : State} {r : RenderWait} (hc : configOk s.cfg = true) (hf : s.status.fault = false)
    (hw : s.wait = some r) : step s = waitingStep r s := by
  simp [step, blockStep, hc, hf, hw]

/-- The next reset of a host that offers some words first: the words stay. -/
theorem nextReset_after_words (words : List Word) (rest : List HostEvent) :
    nextReset (words.map .word ++ .reset :: rest) = some (words.map .word ++ rest) := by
  induction words with
  | nil => rfl
  | cons w words ih => simp [nextReset, ih]

/-- An abandoned command leaves a reset block. -/
theorem abandon_is_reset (w : Word) (ticks : Nat) (inFlight : Bool) (s : State) :
    ∃ u, abandon w ticks inFlight s = resetBlock u := by
  unfold abandon
  split
  · split <;> exact ⟨_, rfl⟩
  all_goals exact ⟨_, rfl⟩

/-- Every command answers a next state. -/
theorem exec_answers (i : Instr) (s : State) : ∃ t, exec i s = .next t := by
  cases i with
  | note key vel =>
    change ∃ t, execNote key vel s = .next t
    unfold execNote
    split <;> exact ⟨_, rfl⟩
  | ctrl id raw => exact ⟨_, rfl⟩
  | asoff => exact ⟨_, rfl⟩
  | render n => exact ⟨_, rfl⟩

/-- What `step` does when it answers a next state. -/
theorem step_next_cases {s s' : State} (h : step s = .next s') :
    configOk s.cfg = true ∧
    ((s.status.fault = true ∧ ∃ rest, nextReset s.port = some rest ∧ s' = resetBlock (s.withPort rest)) ∨
     (s.status.fault = false ∧ ∃ r, s.wait = some r ∧
        ((canGoOn r s = true ∧ s' = goOn r s) ∨
         (canGoOn r s = false ∧ ∃ rest, nextReset s.port = some rest ∧ s' = resetBlock (s.withPort rest)) ∨
         (canGoOn r s = false ∧ nextReset s.port = none ∧ s' = s))) ∨
     (s.status.fault = false ∧ s.wait = none ∧
        ((s.port = [] ∧ s' = s) ∨
         (∃ w rest i, s.port = .word w :: rest ∧ decode w = .command i ∧ exec i (s.withPort rest) = .next s') ∨
         (∃ w rest, s.port = .word w :: rest ∧ decode w = .illegal ∧ s' = dropIllegal (s.withPort rest)) ∨
         (∃ rest, s.port = .reset :: rest ∧ s' = resetBlock (s.withPort rest)) ∨
         (∃ w ticks inFlight rest, s.port = .resetDuring w ticks inFlight :: rest ∧
            s' = abandon w ticks inFlight (s.withPort rest))))) := by
  unfold step blockStep at h
  split at h
  case isFalse => cases h
  case isTrue hc =>
    refine ⟨hc, ?_⟩
    split at h
    case isTrue hf =>
      unfold haltedStep at h
      split at h
      · rename_i rest hr
        exact .inl ⟨hf, rest, hr, (Host.Outcome.next.inj h).symm⟩
      · cases h
    case isFalse hf =>
      have hf' : s.status.fault = false := by simpa using hf
      split at h
      · rename_i r hw
        refine .inr (.inl ⟨hf', r, hw, ?_⟩)
        unfold waitingStep at h
        split at h
        · rename_i hg
          exact .inl ⟨hg, (Host.Outcome.next.inj h).symm⟩
        · rename_i hg
          have hg' : canGoOn r s = false := by simpa using hg
          split at h
          · rename_i rest hr
            exact .inr (.inl ⟨hg', rest, hr, (Host.Outcome.next.inj h).symm⟩)
          · rename_i hr
            exact .inr (.inr ⟨hg', hr, (Host.Outcome.next.inj h).symm⟩)
      · rename_i hw
        refine .inr (.inr ⟨hf', hw, ?_⟩)
        unfold readyStep at h
        split at h
        · rename_i hp
          exact .inl ⟨hp, (Host.Outcome.next.inj h).symm⟩
        · rename_i w rest hp
          unfold takeWord at h
          split at h
          · rename_i i hd
            exact .inr (.inl ⟨w, rest, i, hp, hd, h⟩)
          · rename_i hd
            exact .inr (.inr (.inl ⟨w, rest, hp, hd, (Host.Outcome.next.inj h).symm⟩))
        · rename_i rest hp
          exact .inr (.inr (.inr (.inl ⟨rest, hp, (Host.Outcome.next.inj h).symm⟩)))
        · rename_i w ticks inFlight rest hp
          exact .inr (.inr (.inr (.inr ⟨w, ticks, inFlight, rest, hp, (Host.Outcome.next.inj h).symm⟩)))

end Sys2Proof.Machine
end

