-- ==== Sys2Proof/Laws/PerInstr.lean ====
section
/-!
SUPPORT. Statements about every command as syntax, one lemma per constructor of Instr.
The family `EncodesInItsRow` says that the word of a well-formed command lies in the row of the opcode map (R86) that is
its own: `w AND mask = match`.
-/

/-- The word of the command matches its row of the opcode map. -/
def Sys2Proof.Laws.EncodesInItsRow.Statement (i : Sys2Proof.Instr) : Prop :=
  Sys2Proof.WellFormed i = true → Sys2Proof.encode i &&& Sys2Proof.rowMask i = Sys2Proof.rowMatch i

theorem Sys2Proof.Laws.EncodesInItsRow.note (key vel : Sys2Proof.Num7) :
    Sys2Proof.Laws.EncodesInItsRow.Statement (.note key vel) := by
  intro _
  apply BitVec.eq_of_getLsbD_eq
  intro i hi
  simp only [Sys2Proof.encode, Sys2Proof.rowMask, Sys2Proof.rowMatch, BitVec.getLsbD_and, BitVec.getLsbD_or,
    BitVec.getLsbD_shiftLeft, BitVec.getLsbD_setWidth]
  interval_cases i <;> simp

theorem Sys2Proof.Laws.EncodesInItsRow.ctrl (id : Sys2Proof.Num7) (raw : Int) :
    Sys2Proof.Laws.EncodesInItsRow.Statement (.ctrl id raw) := by
  intro _
  apply BitVec.eq_of_getLsbD_eq
  intro i hi
  simp only [Sys2Proof.encode, Sys2Proof.rowMask, Sys2Proof.rowMatch, BitVec.getLsbD_and, BitVec.getLsbD_or,
    BitVec.getLsbD_shiftLeft, BitVec.getLsbD_setWidth]
  interval_cases i <;> simp

theorem Sys2Proof.Laws.EncodesInItsRow.asoff : Sys2Proof.Laws.EncodesInItsRow.Statement .asoff := by
  intro _
  rfl

theorem Sys2Proof.Laws.EncodesInItsRow.render (n : Nat) : Sys2Proof.Laws.EncodesInItsRow.Statement (.render n) := by
  intro _
  apply BitVec.eq_of_getLsbD_eq
  intro i hi
  simp only [Sys2Proof.encode, Sys2Proof.rowMask, Sys2Proof.rowMatch, BitVec.getLsbD_and, BitVec.getLsbD_or,
    BitVec.getLsbD_setWidth]
  interval_cases i <;> simp
end

