-- ==== Sys2Proof/Laws/Roms.lean ====
section
/-!
SUPPORT. Spec lemmas of the ROM computations and of the arithmetic primitives.
-/

namespace Sys2Proof.Machine

/-- The bit-by-bit search ends at a number that passes while the next one fails; for a test that holds up to some number
and fails beyond it, that is the last number that passes. -/
theorem greatest_spec (ok : Nat → Bool) :
    ∀ bits base, ok base = true → ok (base + 2 ^ bits) = false →
      ok (greatest ok bits base) = true ∧ ok (greatest ok bits base + 1) = false := by
  intro bits
  induction bits with
  | zero => intro base h1 h2; exact ⟨h1, h2⟩
  | succ bits ih =>
    intro base h1 h2
    rw [greatest]
    by_cases h : ok (base + 2 ^ bits) = true
    · rw [if_pos h]
      refine ih _ h ?_
      rw [← h2]
      congr 1
      rw [pow_succ]
      omega
    · rw [if_neg h]
      exact ih _ h1 (by simpa using h)

/-- The division of R8 is Lean's `Int.tdiv` (93_implementation_defined.md G1 says so; this proves it). -/
theorem tdiv_eq_int_tdiv (a : Int) (b : Nat) : tdiv a b = Int.tdiv a b := by
  unfold tdiv
  split
  · rename_i h
    obtain ⟨n, rfl⟩ := Int.eq_ofNat_of_zero_le h
    simp
  · rename_i h
    obtain ⟨n, hn⟩ := Int.eq_ofNat_of_zero_le (show 0 ≤ -a by omega)
    have : a = -(n : Int) := by omega
    subst this
    simp [Int.neg_tdiv]

/-- Every waveform value lies in the range of R51. -/
theorem wave_natAbs_le {i : Nat} (h : i < 1024) : (wave i).natAbs ≤ 32767 := by
  have all : ∀ j ∈ List.range 1024, (wave j).natAbs ≤ 32767 := by decide +kernel
  exact all i (List.mem_range.mpr h)

/-- The waveform index is 10 bits: the top ten of the phase (R61, R121). -/
theorem waveIndex_eq (phase : Turns) : waveIndex phase = phase.toNat / 2 ^ 22 := by
  unfold waveIndex
  rw [BitVec.extractLsb'_toNat, Nat.shiftRight_eq_div_pow]
  have := phase.isLt
  omega

theorem waveIndex_lt (phase : Turns) : waveIndex phase < 1024 := (phase.extractLsb' 22 10).isLt

/-- The clamped control value is at most 127 (R154). -/
theorem ctrlValue_le (raw : Int) : ctrlValue raw ≤ 127 := by
  unfold ctrlValue clamp
  omega

/-- A value in the range of `S1.23` is stored as it is. -/
theorem sat24_toInt (v : Int) : (sat24 v).toInt = clamp v (-8388608) 8388607 := by
  unfold sat24 clamp
  rw [BitVec.toInt_ofInt, Int.bmod_def]
  omega

end Sys2Proof.Machine
end

