-- ==== Sys2Proof/Tests/Slice0.lean ====
section
/-!
SUPPORT. The model's own tests. Every expected number is the spec's (the printed tables of 20_memory.md, the worked
encodings of 30_encoding.md, the vectors of 95_test_vectors.md, named beside each test) or worked out from a rule by hand.
The second half holds, for every statement with hypotheses, a witness that its hypotheses can be met together.
-/

namespace Sys2Proof.Tests

open Sys2Proof Sys2Proof.Machine

/-! ### WellFormed: each check refuses an ill-formed command (R85, R89) -/

theorem test_wellFormed_refuses_raw_above : WellFormed (.ctrl 16 32768) = false := by decide
theorem test_wellFormed_refuses_raw_below : WellFormed (.ctrl 16 (-32769)) = false := by decide
theorem test_wellFormed_refuses_count_above : WellFormed (.render 65536) = false := by decide
theorem test_wellFormed_takes_the_ends :
    WellFormed (.ctrl 127 (-32768)) = true ∧ WellFormed (.ctrl 0 32767) = true ∧ WellFormed (.render 65535) = true := by
  decide

/-! ### Decode: words written out bit by bit from the formats R81 to R84 -/

theorem test_decode_note : decode 0b0001_0000_0000_0000_0_1000101_0_1000000#32 = .command (.note 69 64) := by decide
theorem test_decode_ctrl : decode 0b0010_00000_0010010_0000000011001000#32 = .command (.ctrl 18 200) := by decide
theorem test_decode_ctrl_negative : decode 0b0010_00000_0010010_1000000000000000#32 = .command (.ctrl 18 (-32768)) := by
  decide
theorem test_decode_asoff : decode 0b0011_0000000000000000000000000000#32 = .command .asoff := by decide
theorem test_decode_render : decode 0b0100_000000000000_1111111111111111#32 = .command (.render 65535) := by decide
/-- Each "zero" bit region of a format, set in one place; vectors VD1. -/
theorem test_decode_illegal :
    [0x00000000#32, 0x10008000#32, 0x10000080#32, 0x10010000#32, 0x18000000#32, 0x20800000#32, 0x28100000#32,
      0x30000001#32, 0x38000000#32, 0x40010000#32, 0x48000001#32, 0x50000000#32, 0xF0000000#32].all
      (fun w => decode w == .illegal) = true := by decide
theorem test_encode_words :
    encode (.note 127 127) = 0x10007F7F#32 ∧ encode (.ctrl 16 (-5)) = 0x2010FFFB#32 ∧ encode .asoff = 0x30000000#32 ∧
      encode (.render 128) = 0x40000080#32 := by decide

/-- R89, R90: the assembler refuses `NOTEON` with velocity 0 and an operand out of range. -/
theorem test_assembler_refuses :
    Machine.expand Config.default (.noteon 60 0) = none ∧ Machine.expand Config.default (.sustain 32768) = none ∧
      Machine.expand Config.default (.renderz 65536) = none := by decide

/-- R56: channel 0 in the low 24 bits. -/
theorem test_packFrame : Machine.packFrame [1#24, 0xFFFFFF#24] = 0xFFFFFF000001 := by decide

/-! ### The ROMs against the printed tables (R52 to R54) -/

/-- A configuration at the other sample rate that 20_memory.md prints tables for. -/
def cfg44100 : Config :=
  { Config.default with
    sr := 44100
    rstAttack := Config.linearDuration 44100, rstDecay := Config.linearDuration 44100
    rstRelease := Config.linearDuration 44100 }

theorem test_pinc_48000 : (List.range 128).map (pincRounded Config.default) =
  [731558, 775059, 821146, 869974, 921705, 976513, 1034579, 1096099] ++
  [1161276, 1230329, 1303488, 1380998, 1463116, 1550118, 1642292, 1739948] ++
  [1843411, 1953026, 2069159, 2192197, 2322552, 2460658, 2606977, 2761996] ++
  [2926232, 3100235, 3284585, 3479896, 3686822, 3906052, 4138318, 4384395] ++
  [4645104, 4921317, 5213953, 5523991, 5852465, 6200470, 6569170, 6959793] ++
  [7373644, 7812103, 8276635, 8768789, 9290209, 9842633, 10427907, 11047982] ++
  [11704930, 12400941, 13138339, 13919586, 14747287, 15624207, 16553270, 17537579] ++
  [18580418, 19685267, 20855814, 22095965, 23409859, 24801882, 26276679, 27839171] ++
  [29494575, 31248413, 33106541, 35075158, 37160835, 39370534, 41711627, 44191930] ++
  [46819719, 49603764, 52553357, 55678342, 58989149, 62496826, 66213081, 70150316] ++
  [74321671, 78741067, 83423255, 88383859, 93639437, 99207528, 105106715, 111356685] ++
  [117978298, 124993653, 132426162, 140300631, 148643341, 157482134, 166846509, 176767719] ++
  [187278874, 198415056, 210213429, 222713370, 235956596, 249987305, 264852324, 280601263] ++
  [297286682, 314964268, 333693018, 353535438, 374557749, 396830112, 420426858, 445426740] ++
  [471913192, 499974611, 529704648, 561202526, 594573365, 629928537, 667386037, 707070876] ++
  [749115498, 793660223, 840853716, 890853480, 943826385, 999949222, 1059409297, 1122405052] := by decide +kernel

theorem test_pinc_44100 : (List.range 128).map (pincRounded cfg44100) =
  [796254, 843601, 893765, 946911, 1003217, 1062871, 1126073, 1193033] ++
  [1263974, 1339134, 1418763, 1503127, 1592507, 1687203, 1787529, 1893821] ++
  [2006434, 2125742, 2252146, 2386065, 2527948, 2678268, 2837526, 3006254] ++
  [3185015, 3374406, 3575058, 3787642, 4012867, 4251485, 4504291, 4772130] ++
  [5055896, 5356535, 5675051, 6012507, 6370030, 6748811, 7150117, 7575285] ++
  [8025735, 8502970, 9008582, 9544261, 10111792, 10713070, 11350103, 12025015] ++
  [12740059, 13497623, 14300233, 15150569, 16051469, 17005939, 18017165, 19088521] ++
  [20223584, 21426141, 22700205, 24050030, 25480119, 26995246, 28600467, 30301139] ++
  [32102938, 34011878, 36034330, 38177043, 40447168, 42852281, 45400411, 48100060] ++
  [50960238, 53990491, 57200933, 60602278, 64205876, 68023757, 72068660, 76354085] ++
  [80894335, 85704563, 90800821, 96200119, 101920476, 107980983, 114401866, 121204555] ++
  [128411753, 136047513, 144137319, 152708170, 161788671, 171409126, 181601643, 192400238] ++
  [203840952, 215961966, 228803732, 242409110, 256823506, 272095026, 288274639, 305416341] ++
  [323577341, 342818251, 363203285, 384800477, 407681904, 431923931, 457607465, 484818220] ++
  [513647012, 544190053, 576549277, 610832681, 647154683, 685636503, 726406571, 769600953] ++
  [815363807, 863847862, 915214929, 969636441, 1027294024, 1088380105, 1153098554, 1221665363] := by decide +kernel

theorem test_dur_48000 : (List.range 128).map (durNat Config.default) =
  [0, 385, 786, 1203, 1636, 2086, 2553, 3039] ++
  [3542, 4065, 4607, 5169, 5752, 6355, 6981, 7630] ++
  [8301, 8996, 9716, 10461, 11232, 12029, 12854, 13707] ++
  [14589, 15501, 16444, 17418, 18424, 19464, 20538, 21647] ++
  [22792, 23974, 25195, 26455, 27755, 29096, 30480, 31908] ++
  [33381, 34900, 36466, 38081, 39746, 41462, 43231, 45055] ++
  [46933, 48869, 50864, 52919, 55036, 57216, 59462, 61774] ++
  [64155, 66607, 69131, 71729, 74404, 77157, 79990, 82906] ++
  [85906, 88994, 92170, 95438, 98800, 102258, 105815, 109473] ++
  [113235, 117104, 121082, 125173, 129379, 133703, 138148, 142717] ++
  [147414, 152242, 157204, 162304, 167544, 172930, 178464, 184149] ++
  [189991, 195994, 202160, 208494, 215001, 221685, 228550, 235601] ++
  [242842, 250279, 257917, 265760, 273813, 282082, 290572, 299290] ++
  [308239, 317427, 326859, 336542, 346481, 356683, 367154, 377902] ++
  [388932, 400253, 411871, 423794, 436029, 448583, 461466, 474684] ++
  [488246, 502161, 516438, 531084, 546110, 561524, 577337, 593557] := by decide +kernel

theorem test_dur_44100 : (List.range 128).map (durNat cfg44100) =
  [0, 354, 722, 1105, 1503, 1916, 2346, 2792] ++
  [3254, 3734, 4232, 4749, 5284, 5839, 6414, 7010] ++
  [7627, 8265, 8927, 9611, 10319, 11052, 11810, 12594] ++
  [13404, 14242, 15108, 16003, 16927, 17882, 18869, 19888] ++
  [20940, 22026, 23148, 24305, 25500, 26732, 28004, 29316] ++
  [30669, 32064, 33503, 34987, 36517, 38093, 39719, 41394] ++
  [43120, 44899, 46731, 48619, 50564, 52567, 54630, 56755] ++
  [58943, 61195, 63514, 65901, 68359, 70888, 73491, 76170] ++
  [78927, 81763, 84681, 87684, 90772, 93949, 97217, 100578] ++
  [104035, 107589, 111244, 115002, 118867, 122839, 126923, 131121] ++
  [135437, 139872, 144431, 149117, 153931, 158879, 163963, 169187] ++
  [174555, 180069, 185734, 191554, 197532, 203673, 209980, 216458] ++
  [223111, 229944, 236961, 244167, 251566, 259163, 266963, 274972] ++
  [283195, 291636, 300302, 309198, 318329, 327702, 337323, 347197] ++
  [357332, 367733, 378407, 389361, 400601, 412136, 423971, 436116] ++
  [448576, 461361, 474477, 487934, 501738, 515900, 530428, 545331] := by decide +kernel

theorem test_sus : (List.range 128).map (fun v => (sus v).toNat) =
  [0, 258, 516, 774, 1032, 1290, 1548, 1806] ++
  [2064, 2322, 2580, 2838, 3096, 3354, 3612, 3870] ++
  [4128, 4386, 4644, 4902, 5160, 5418, 5676, 5934] ++
  [6192, 6450, 6708, 6966, 7224, 7482, 7740, 7998] ++
  [8256, 8514, 8772, 9030, 9288, 9546, 9804, 10062] ++
  [10320, 10578, 10836, 11094, 11352, 11610, 11868, 12126] ++
  [12384, 12642, 12900, 13158, 13416, 13674, 13932, 14190] ++
  [14448, 14706, 14964, 15222, 15480, 15738, 15996, 16254] ++
  [16513, 16771, 17029, 17287, 17545, 17803, 18061, 18319] ++
  [18577, 18835, 19093, 19351, 19609, 19867, 20125, 20383] ++
  [20641, 20899, 21157, 21415, 21673, 21931, 22189, 22447] ++
  [22705, 22963, 23221, 23479, 23737, 23995, 24253, 24511] ++
  [24769, 25027, 25285, 25543, 25801, 26059, 26317, 26575] ++
  [26833, 27091, 27349, 27607, 27865, 28123, 28381, 28639] ++
  [28897, 29155, 29413, 29671, 29929, 30187, 30445, 30703] ++
  [30961, 31219, 31477, 31735, 31993, 32251, 32509, 32768] := by decide +kernel

/-- Vector VO1. -/
theorem test_wave_spot_values :
    [0, 1, 2, 255, 256, 257, 511, 512, 513, 767, 768, 769, 1023].map wave =
      [32767, 32766, 32765, 201, 0, -201, -32766, -32767, -32766, -201, 0, 201, 32766] := by decide +kernel

/-! ### The configuration (R4) -/

theorem test_configOk : configOk Config.default = true ∧ configOk cfg44100 = true := by decide +kernel
/-- One configuration that breaks each constraint, (a) to (f) in order, two for (d). -/
theorem test_configOk_refuses :
    [{ Config.default with cap := 0 }, { Config.default with cap := 257 }, { Config.default with nch := 0 },
      { Config.default with sr := 25087 }, { Config.default with ccDecay := 16 }, { Config.default with ccRelease := 128 },
      { Config.default with dbNum := 60 }, { Config.default with rstDecay := 2 ^ 24 },
      { Config.default with rstSustain := 32769 }].all (fun c => !configOk c) = true := by decide +kernel

/-! ### Primitives and micro-operations -/

/-- Vector VE1. -/
theorem test_lerp :
    [lerp 3 0 0 1000, lerp 3 0 333 1000, lerp 3 0 334 1000, lerp 3 0 999 1000, lerp 0 32768 2 3, lerp 32768 16384 1 3,
      lerp 32768 0 6046 6047, lerp 0 32768 593556 593557, lerp 32768 0 4294967294 4294967295] =
      [3, 3, 2, 1, 21845, 27307, 6, 32767, 1] := by decide

/-- Vectors VM1 to VM8. -/
theorem test_mixValue :
    [0, 1279, 1280, 2559, -1279, -1280, -1281, 1073709056, -1073709056].map (mixValue Config.default) =
      [0, 0, 1, 1, 0, -1, -1, 838835, -838835] := by decide

/-- Vector VM10. -/
theorem test_mixFrame_clips :
    (mixFrame [100#24, BitVec.ofInt 24 (-100), 8000000#24] 838835).map (·.toInt) = [838935, 838735, 8388607] ∧
      (mixFrame [BitVec.ofInt 24 (-8388608)] (-1)).map (·.toInt) = [-8388608] := by decide

/-- Vector VO4. -/
theorem test_waveIndex :
    [0x003FFFFF#32, 0x00400000#32, 0x40000000#32, 0x80000000#32, 0xFFFFFFFF#32].map waveIndex =
      [0, 1, 256, 512, 1023] := by decide

/-- R105, vector VE14: the count saturates. -/
theorem test_countSample : countSample 4294967295#32 = 4294967295#32 ∧ countSample 7#32 = 8#32 := by decide

/-! ### One step of each command, on small states -/

/-- VC2 of 95_test_vectors.md: short stages. -/
def cfgShort : Config := { Config.default with rstAttack := 4, rstDecay := 4, rstRelease := 4 }

/-- A voice on key 60 in a given stage. -/
def voice (st : Sounding) (elapsed : BitVec 32) (las gain : Gain) : Slot :=
  { valid := true, note := 60, vel := 100, phase := 0, pinc := 23409859, stage := .sounding st, elapsed := elapsed
    las := las, gain := gain }

/-- The block of configuration VC2 with given voices in its first slots, a word offered and frames supplied. -/
def block (voices : List Slot) (words : List Word) (frames : List Frame) : State :=
  { State.resetOf cfgShort with
    slots := voices ++ List.replicate (8 - voices.length) Slot.free
    port := words.map .word
    framesIn := frames }

/-- The state after one step, or the state itself. -/
def after (s : State) : State := (nextState? (step s)).getD s

/-- R152's example, at the default configuration: `NOTE 69, 64` from reset. -/
theorem test_note_on :
    (nextState? (step (State.reset.withFetchWord 32 0x10004540))).map (fun t => (t.slots[0]?, t.slots[1]?)) =
      some (some { valid := true, note := 69, vel := 64, phase := 0, pinc := 39370534, stage := .sounding .attack
                   elapsed := 0, las := 0, gain := 0 }, some Slot.free) := by decide +kernel

/-- Vector VE6: note-off in the middle of an Attack starts the ramp from the present gain. -/
theorem test_note_off :
    (after (block [voice .attack 4 0 12288] [0x10003C00#32] [])).slots[0]? = some (voice .release 0 12288 12288) := by
  decide +kernel

/-- Vector VD2: `raw = -7` is clamped to 0 and `raw = 300` to 127. -/
theorem test_ctrl_clamps :
    (after (block [] [0x2012FFF9#32] [])).params.sustain = 0 ∧
      (after (block [] [0x2013012C#32] [])).params.release.toNat = 593557 := by decide +kernel

/-- Vector VD2: an unknown identifier changes nothing. -/
theorem test_ctrl_unknown : (after (block [] [0x20140064#32] [])).params = (block [] [] []).params := by decide +kernel

/-- Program P4, command 6: each voice is released from its own present gain, a free slot stays free. -/
theorem test_asoff :
    (after (block [voice .decay 4 24576 20480, voice .attack 2 0 8192] [0x30000000#32] [])).slots.take 3 =
      [voice .release 0 20480 20480, voice .release 0 8192 8192, Slot.free] := by decide +kernel

/-- Vector VE2, ticks 4 and 5: the last sample of the Attack, then the entry of Decay at full gain. The phase is that of
tick 4 (3 * PINC[60]). -/
theorem test_render_two_ticks :
    let t := after (block [{ voice .attack 3 0 16384 with phase := 70229577 }] [0x40000002#32] [[0, 0], [0, 0]])
    (t.slots[0]?).map (fun v => (v.stage, v.elapsed, v.las, v.gain)) = some (.sounding .decay, 1, 24576, 32768) ∧
      t.framesOut.map (·.map (·.toInt)) = [[626092, 626092], [831206, 831206]] := by decide +kernel

/-- Vector VE2, tick 17: the release ends and the slot is reclaimed. -/
theorem test_render_reclaims :
    (after (block [voice .release 4 16384 4096] [0x40000001#32] [[0, 0]])).slots[0]? = some Slot.free := by decide +kernel

/-- Vector VF1: an active Idle slot and a slot in stage 6: `STATUS = 0x0105`, no frame taken or emitted. -/
theorem test_invalid_stage :
    let t := after (block [voice .attack 2 0 8192, { voice .attack 2 0 8192 with stage := .idle, note := 64 },
      { voice .attack 2 0 8192 with stage := .code6, note := 67 }] [0x40000003#32] [[0, 0]])
    statusWord t.status = 0x0105#16 ∧ t.framesIn = [[0, 0]] ∧ t.framesOut = [] := by decide +kernel

/-- Vector VV3: a stage without a table row in a free slot is no fault. -/
theorem test_free_slot_any_stage :
    let t := after (block [{ Slot.free with stage := .code7 }] [0x40000002#32] [[0, 0], [0, 0]])
    statusWord t.status = 0 ∧ t.framesOut = [[0, 0], [0, 0]] := by decide +kernel

/-- Vector VF2, the first word: an illegal word sets `BADCMD` and the block goes on. -/
theorem test_illegal_word : statusWord (after (block [] [0x00000000#32] [])).status = 0x0002#16 := by decide +kernel

/-- R56, R218: with one frame of two supplied, one tick is complete and the block waits in the command. -/
theorem test_render_waits :
    let t := after (block [voice .sustain 0 0 16384] [0x40000002#32] [[0, 0]])
    t.framesOut.length = 1 ∧ t.wait = some { left := 1, held := none } ∧ after t = t := by decide +kernel

/-! ### Witnesses: the hypotheses of each statement can be met -/

/-- A state that meets the invariant with two voices, a word and a frame at the ports. -/
def live (words : List Word) (frames : List Frame) : State :=
  block [voice .attack 2 0 8192, { voice .sustain 9 0 16384 with note := 61, pinc := 24801882 }] words frames

theorem witness_inv (words : List Word) : (live words [[0, 0], [5, 7]]).Inv where
  config := by show configOk cfgShort = true; decide +kernel
  slotCount := rfl
  sound := by
    have h : ∀ v ∈ (live [] []).slots, v.Sound cfgShort := by decide +kernel
    exact h
  distinct := by
    have h : DistinctNotes (live [] []).slots := by decide +kernel
    exact h
  gains := by
    have h : ∀ v ∈ (live [] []).slots, v.GainsInRange := by decide +kernel
    exact h
  justReleased := by
    have h : ∀ v ∈ (live [] []).slots, v.JustReleased := by decide +kernel
    exact h
  sustain := by
    have h : (live [] []).params.sustain.toNat ≤ 32768 := by decide
    exact h
  noFault := ⟨rfl, rfl, rfl⟩
  frames := by
    have h : (live [] [[0, 0], [5, 7]]).FramesFit := by decide +kernel
    exact h

theorem witness_DecodeOfEncodeIsTheCommand : WellFormed (.ctrl 127 (-32768)) = true ∧ WellFormed (.render 65535) = true := by
  decide

theorem witness_EncodeOfDecodeIsTheWord : decode 0x20128000#32 = .command (.ctrl 18 (-32768)) := by decide

theorem witness_DecodeFollowsTheOpcodeMap : (0x0FFFFFFF#32).toNat / 2 ^ 28 = 0 ∧ 5 ≤ (0x50000000#32).toNat / 2 ^ 28 := by
  decide

theorem witness_OperandsAreTheirFields :
    decode 0x10007F7F#32 = .command (.note 127 127) ∧ decode 0x20127FFF#32 = .command (.ctrl 18 32767) ∧
      decode 0x20128000#32 = .command (.ctrl 18 (-32768)) ∧ decode 0x4000FFFF#32 = .command (.render 65535) := by decide

/-- Also for BadcmdIsStickyUntilReset, first clause. -/
theorem witness_IllegalWordsAreDropped :
    (live [0x00000000#32] []).Ready ∧ (live [0x00000000#32] []).port = [.word 0x00000000#32] ∧
      decode 0x00000000#32 = .illegal := by decide +kernel

/-- A block that has dropped a word, with one more offered. -/
def flagged (words : List Word) : State := (live words []).withStatus { Status.clear with badcmd := true }

theorem witness_BadcmdIsStickyUntilReset :
    (flagged [0x30000000#32]).status.badcmd = true ∧ ∃ t, step (flagged [0x30000000#32]) = .next t :=
  ⟨rfl, _, by rw [step, blockStep]; exact if_pos (by decide +kernel : configOk cfgShort = true)⟩

theorem witness_PseudoCommandsExpand :
    configOk Config.default = true ∧ (-32768 : Int) ≤ -32768 ∧ (-32768 : Int) ≤ 32767 ∧ 65535 ≤ 65535 ∧
      expand Config.default (.attack (-32768)) = some (.ctrl 16 (-32768)) := by decide +kernel

theorem witness_StepRunsTheDecodedCommand :
    (live [0x40000001#32] [[0, 0]]).Ready ∧ (live [0x40000001#32] [[0, 0]]).port = [.word 0x40000001#32] ∧
      decode 0x40000001#32 = .command (.render 1) := by decide +kernel

theorem witness_FetchWordRunsNext :
    State.reset.Ready ∧ decodeTableWord 32 0x10007F7F = some (.note 127 127) ∧
      decodeTableWord 16 0x20000 = none := by decide +kernel

theorem witness_IdleBlockWaitsForAWord : State.reset.Ready ∧ State.reset.port = [] := by decide +kernel

/-- A halted block with words offered and then a reset. -/
def stopped (events : List HostEvent) : State :=
  (block [{ voice .attack 2 0 8192 with stage := .code5 }] [] []).withPort events |>.withStatus
    (Status.clear.invalidStage 0)

theorem witness_HaltedBlockOnlyResets :
    (configOk (stopped [.word 0]).cfg = true ∧ (stopped [.word 0]).Halted ∧ OnlyWords (stopped [.word 0]).port) ∧
      (configOk (stopped [.word 1, .reset]).cfg = true ∧ (stopped [.word 1, .reset]).Halted ∧
        (stopped [.word 1, .reset]).port = [1].map .word ++ .reset :: []) ∧
      (nextState? (step (stopped [.word 1, .reset]))).isSome = true := by decide +kernel

theorem witness_ResetGivesEveryResetValue :
    ((live [] []).withPort [.reset]).Ready ∧
      (stopped [.reset]).status.fault = true ∧ (after (stopped [.reset])).status.fault = false ∧
      ((flagged []).withPort [.reset]).status.badcmd = true ∧
      (after ((flagged []).withPort [.reset])).status.badcmd = false := by decide +kernel

/-- Also for the port hypothesis of ResetGivesEveryResetValue. -/
theorem witness_ResetLeavesTheStreams :
    ((live [] [[1, 2]]).withPort [.reset, .word 7]).Ready ∧
      ((live [] [[1, 2]]).withPort [.reset, .word 7]).port = .reset :: [.word 7] := by decide +kernel

theorem witness_ResetDuringACommandAbandonsIt :
    ((live [] [[1, 2], [3, 4]]).withPort [.resetDuring 0x40000002#32 1 true]).Ready ∧
      decode 0x40000002#32 = .command (.render 2) ∧
      (after ((live [] [[1, 2], [3, 4]]).withPort [.resetDuring 0x40000002#32 1 true])).framesOut.length = 1 ∧
      (∀ n ∈ List.range 4, decode 0x30000000#32 ≠ .command (.render n)) := by decide +kernel

theorem witness_ResetStateMeetsTheInvariant : configOk cfg44100 = true := by decide +kernel

/-- Also for RunsFromTheInvariantNeverStop. -/
theorem witness_EveryStepKeepsTheInvariant :
    (live [0x40000001#32] [[0, 0], [5, 7]]).Inv ∧
      (nextState? (step (live [0x40000001#32] [[0, 0], [5, 7]]))).isSome = true :=
  ⟨witness_inv _, by decide +kernel⟩

/-- A file of 256 slots whose last one is corrupt: the highest slot index. -/
def corruptLast : State :=
  { State.resetOf { cfgShort with cap := 256 } with
    slots := List.replicate 255 Slot.free ++ [{ voice .attack 0 0 0 with stage := .code7 }] }

theorem witness_InvalidStageIsPrecise :
    (255 < 256 ∧ LowestSlot (fun v => v.valid &&
      decide (v.stage = .idle ∨ v.stage = .code5 ∨ v.stage = .code6 ∨ v.stage = .code7)) corruptLast.slots 255) ∧
      ((live [] [[0, 0], [5, 7]]).Inv ∧ ∃ t, exec (.render 2) (live [] [[0, 0], [5, 7]]) = .next t) ∧
      (∃ t, exec (.render 1) corruptLast = .next t ∧ t.status ≠ corruptLast.status) :=
  ⟨by decide +kernel, ⟨witness_inv _, _, rfl⟩, _, rfl, by decide +kernel⟩

theorem witness_RenderRunsTickByTick :
    NoSlot badSlot (live [] [[1, 2]]).slots ∧ (live [] [[1, 2]]).framesIn = [1, 2] :: [] ∧
      (live [] [[1, 2]]).outRoom ≠ some 0 := by decide +kernel

/-- The frames and the acceptance are exactly as many as the ticks. -/
theorem witness_RenderCompletes :
    let s := (live [] [[1, 2], [3, 4]]).withOutRoom (some 2)
    NoSlot badSlot s.slots ∧ 2 ≤ s.framesIn.length ∧ ∀ r ∈ s.outRoom, 2 ≤ r := by decide +kernel

theorem witness_RenderSplits :
    (let s := live [] [[1, 2]]
     s.status.fault = false ∧ s.wait = none ∧ ∃ t, exec (.render 1) s = .next t ∧ t.status.fault = false ∧ t.wait = none) ∧
    (let s := block [{ voice .attack 2 0 8192 with stage := .code5 }] [] []
     s.status.fault = false ∧ s.wait = none ∧ ∃ t, exec (.render 1) s = .next t ∧ t.status.fault = true) :=
  ⟨⟨rfl, rfl, _, rfl, by decide +kernel, by decide +kernel⟩, rfl, rfl, _, rfl, by decide +kernel⟩

theorem witness_WaitingRenderGoesOn :
    ((live [] [[1, 2]]).Ready ∧ (runTicks 3 (live [] [[1, 2]])).wait = some { left := 2, held := none }) ∧
    (((live [] [[1, 2], [3, 4]]).withOutRoom (some 1)).Ready ∧
      ((runTicks 3 ((live [] [[1, 2], [3, 4]]).withOutRoom (some 1))).wait.map (fun r => (r.left, r.held.isSome))) =
        some (1, true)) := by decide +kernel

theorem witness_StarvedRenderWaits :
    let w := (live [] []).withWait (some { left := 1, held := none })
    let h := ((live [] []).withWait (some { left := 0, held := some [0, 0] })).withOutRoom (some 0)
    configOk w.cfg = true ∧ w.status.fault = false ∧ w.framesIn = [] ∧ OnlyWords w.port ∧
      configOk h.cfg = true ∧ h.status.fault = false ∧ h.outRoom = some 0 ∧
      (h.withPort [.word 3, .reset]).port = [3].map .word ++ .reset :: [] := by decide +kernel

theorem witness_RenderLeavesTheRestAlone :
    (live [] [[1, 2]]).wait = none ∧ (∃ t, exec (.render 2) (live [] [[1, 2]]) = .next t) ∧
      (live [] []).slots[1]? ≠ none ∧ ((live [] []).slots[7]?).map (·.valid) = some false :=
  ⟨rfl, ⟨_, rfl⟩, by decide, by decide⟩

theorem witness_IdleBlockPassesFramesThrough :
    let s := block [] [] [[1, 2], [3, 4]]
    (∀ v ∈ s.slots, v.valid = false) ∧ 2 ≤ s.framesIn.length ∧ ∀ r ∈ s.outRoom, 2 ≤ r := by decide +kernel

/-- A full pool: every slot active, keys 60 to 67. -/
def full : State :=
  block ((List.range 8).map (fun i => { voice .attack 2 0 8192 with note := BitVec.ofNat 7 (60 + i) })) [] []

/-- The first clause at slot 1, the second at the last slot of a file with one free slot, the third on a full pool. -/
theorem witness_NoteOnStartsASlot :
    (LowestSlot (fun u => u.valid && u.note == 61) (live [] []).slots 1 ∧ (live [] []).slots[1]? ≠ none) ∧
    (let s := full.withSlots (full.slots.set 7 Slot.free)
     NoSlot (fun u => u.valid && u.note == 127) s.slots ∧ LowestSlot (fun u => !u.valid) s.slots 7 ∧ s.slots[7]? ≠ none) ∧
    (NoSlot (fun u => u.valid && u.note == 68) full.slots ∧ ∀ u ∈ full.slots, u.valid = true) := by decide +kernel

theorem witness_NoteOffReleasesTheSlot :
    (LowestSlot (fun u => u.valid && u.note == 67) full.slots 7 ∧ full.slots[7]? ≠ none) ∧
      NoSlot (fun u => u.valid && u.note == 0) full.slots := by decide +kernel

theorem witness_NoteLeavesTheRestAlone : noteTarget 61 1 (live [] []).slots ≠ some 0 := by decide +kernel

theorem witness_NoVoiceIsStolen :
    (∃ t, exec (.note 68 1) full = .next t) ∧ (full.slots[7]?).map (·.valid) = some true := ⟨⟨_, rfl⟩, by decide +kernel⟩

/-- Two states that differ in a velocity only, and commands that differ in a velocity only. -/
theorem witness_VelocityIsNeverHeard :
    (block [voice .attack 2 0 8192] [] []).forgetVel =
        (block [{ voice .attack 2 0 8192 with vel := 5 }] [] []).forgetVel ∧
      sameButVel (.note 60 1) (.note 60 127) ∧ sameButVel (.render 3) (.render 3) ∧
      ∃ t, exec (.note 60 1) (block [voice .attack 2 0 8192] [] []) = .next t :=
  ⟨by decide +kernel, ⟨rfl, by decide⟩, rfl, _, rfl⟩

theorem witness_CtrlWritesOneParameter :
    configOk Config.default = true ∧ (16 : Num7).toNat = Config.default.ccAttack ∧
      (17 : Num7).toNat = Config.default.ccDecay ∧ (18 : Num7).toNat = Config.default.ccSustain ∧
      (19 : Num7).toNat = Config.default.ccRelease ∧
      (20 : Num7).toNat ∉ [Config.default.ccAttack, Config.default.ccDecay, Config.default.ccSustain,
        Config.default.ccRelease] := by decide +kernel

theorem witness_AsoffReleasesEveryActiveSlot :
    ((live [] []).slots[0]?).map (·.valid) = some true ∧ ((live [] []).slots[7]?).map (·.valid) = some false := by
  decide +kernel

theorem witness_OnlyRenderMovesFrames :
    (∀ n, Instr.asoff ≠ .render n) ∧ (∃ id raw, Instr.ctrl 16 (-5) = .ctrl id raw) ∧ ∀ id raw, Instr.asoff ≠ .ctrl id raw :=
  ⟨by simp, ⟨16, -5, rfl⟩, by simp⟩

theorem witness_ConfigurationNeverChanges : (nextState? (step (live [0x20100001#32] []))).isSome = true := by
  decide +kernel

/-- A rising, a falling and a flat ramp, at the last sample of the ramp. -/
theorem witness_LerpLaws :
    (0 ≤ 32768 ∧ 32768 ≤ 32768 ∧ 3 < 4 ∧ 0 ≤ 32768) ∧ (1 ≤ 32768 ∧ 0 ≤ 32768 ∧ 3 < 4 ∧ 0 < 1) ∧ (2 ≤ 3 ∧ 3 < 4) := by
  decide

theorem witness_InitialStageSkipsZeroStages :
    (Params.ofReset cfgShort).attack ≠ 0 ∧
      (let p := Params.ofReset { cfgShort with rstAttack := 0 }
       p.attack = 0 ∧ p.decay ≠ 0) ∧
      (let p := Params.ofReset { cfgShort with rstAttack := 0, rstDecay := 0 }
       p.attack = 0 ∧ p.decay = 0) := by decide

/-- Each of the three clauses, the first also with `DECAY = 0`. -/
theorem witness_EnvelopeRisesAndSettles :
    let p := Params.ofReset cfgShort
    let q := Params.ofReset { cfgShort with rstDecay := 0, rstSustain := 32768 }
    p.sustain.toNat ≤ 32768 ∧ q.sustain.toNat ≤ 32768 ∧ (voice .attack 0 0 0).elapsed = 0 ∧
      (voice .attack 0 0 0).valid = true ∧ 1 ≤ p.attack.toNat ∧
      1 ≤ q.attack.toNat ∧ 1 ≤ p.decay.toNat ∧ (voice .decay 0 0 0).stage = .sounding .decay ∧
      (voice .sustain 0 0 0).stage = .sounding .sustain ∧ 4 ≤ p.decay.toNat := by decide

theorem witness_ReleaseTailIsExact :
    let v := voice .release 0 12288 12288
    v.valid = true ∧ v.stage = .sounding .release ∧ v.elapsed = 0 ∧ v.las = v.gain ∧ v.gain ≠ 0 ∧
      1 ≤ (Params.ofReset cfgShort).release.toNat ∧ (voice .release 3 0 0).las = 0 ∧
      (Params.ofReset { cfgShort with rstRelease := 0 }).release = 0 := by decide

theorem witness_SnappedSlotSoundsAgainAfterCtrl :
    let v := voice .release 0 688 0
    v.valid = true ∧ v.stage = .sounding .release ∧ v.elapsed = 0 ∧ v.gain = 0 ∧ v.las ≠ 0 ∧
      (Params.ofReset cfgShort).release ≠ 0 := by decide

/-- Each stage at the boundary: the duration equal to `elapsed`, one more than it, and raised beyond that. -/
theorem witness_ChangedParameterActsAtTheNextAdvance :
    let p := Params.ofReset cfgShort
    let q := Params.ofReset { cfgShort with rstAttack := 9, rstDecay := 0, rstRelease := 9 }
    let v (st : Sounding) (e : Nat) := voice st e 100 100
    p.sustain.toNat ≤ 32768 ∧ p.attack.toNat ≤ (v .attack 4 ).elapsed.toNat ∧ p.decay ≠ 0 ∧ q.decay = 0 ∧
      p.decay.toNat ≤ (v .decay 4).elapsed.toNat ∧ p.release.toNat ≤ (v .release 4).elapsed.toNat ∧
      (v .attack 3).elapsed.toNat < p.attack.toNat ∧ p.attack.toNat ≤ q.attack.toNat ∧
      (v .decay 3).elapsed.toNat < p.decay.toNat ∧ (v .release 3).elapsed.toNat < p.release.toNat ∧
      p.release.toNat ≤ q.release.toNat ∧ (v .sustain 9).stage = .sounding .sustain := by decide

theorem witness_StageChangesOfATick :
    ∀ st ∈ [Sounding.attack, .decay, .sustain, .release],
      (voice st 4 0 0).valid = true ∧ (voice st 4 0 0).stage = .sounding st := by decide

theorem witness_OscillatorReadsBeforeItSteps :
    (voice .attack 0 0 0).valid = true ∧ (voice .attack 0 0 0).stage = .sounding .attack := by decide

theorem witness_PhaseAfterTicks :
    let v := voice .attack 0 0 0
    v.valid = true ∧ v.stage.isSounding = true ∧ ((tickSlot (Params.ofReset cfgShort))^[3] v).valid = true := by
  decide +kernel

theorem witness_WaveIsTheRoundedCosine : 0 < 1024 ∧ 1023 < 1024 := by decide

theorem witness_PincIsTheNearestInteger : 0 < Config.default.sr := by decide

theorem witness_MixIsBounded :
    let s := live [] []
    configOk s.cfg = true ∧ s.slots.length = s.cfg.cap ∧ s.params.sustain.toNat ≤ 32768 ∧
      (∀ v ∈ s.slots, v.GainsInRange) ∧ s.cfg.mgNum = 4 ∧ s.cfg.mgDen = 5 := by decide +kernel

theorem witness_OutputIsClipped : ([8000000#24, 0#24] : Frame)[1]? = some 0#24 := by decide

/-- R27: the codes as the table prints them. -/
theorem test_stage_codes :
    [Stage.idle, .sounding .attack, .sounding .decay, .sounding .sustain, .sounding .release, .code5, .code6, .code7].map
      (fun st => st.code.toNat) = [0, 1, 2, 3, 4, 5, 6, 7] := by decide

/-- A slot in code 5 under a step that leaves it there (a free one, passed over by RENDER), and an active one in code 7. -/
theorem witness_StageEncoding :
    let s := block [{ Slot.free with stage := .code5 }] [0x40000001#32] [[0, 0]]
    ((nextState? (step s)).bind (·.slots[0]?)).map (fun v => decide (5 ≤ v.stage.code.toNat)) = some true ∧
      ∃ v ∈ corruptLast.slots, v.valid = true ∧ 5 ≤ v.stage.code.toNat := by decide +kernel

/-- A free slot; a Release at its end; a Release on its ramp; an Attack. -/
theorem witness_TickAdvancesStepsAndReclaims :
    let p := Params.ofReset cfgShort
    Slot.free.valid = false ∧ (voice .release 4 100 50).valid = true ∧
      (advance p .release (voice .release 4 100 50)).stage = .sounding .release ∧
      (advance p .release (voice .release 4 100 50)).gain = 0 ∧
      (advance p .release (voice .release 3 100 50)).gain ≠ 0 ∧
      (advance p .attack (voice .attack 0 0 0)).stage ≠ .sounding .release := by decide

/-- A slot released before its first sample, in a state that meets the invariant. -/
def doneAtOnce (words : List Word) (frames : List Frame) : State :=
  block [voice .release 0 0 0] words frames

theorem witness_DoneSlotsAreReclaimedUnlessReleaseIsRaised :
    (let s := doneAtOnce [0x20130000#32] [[0, 0]]
     s.Inv6 ∧ ((nextState? (step s)).map (fun t => decide (t.params.release.toNat ≤ s.params.release.toNat))) = some true ∧
       NoSlot badSlot s.slots ∧ s.framesIn ≠ []) ∧
    (let v := voice .release 0 688 0
     v.valid = true ∧ v.stage = .sounding .release ∧ v.gain = 0 ∧ v.las ≠ 0) := by decide +kernel

/-- The state of the second clause meets the invariant. -/
theorem witness_doneAtOnce_inv : (doneAtOnce [] []).Inv where
  config := by show configOk cfgShort = true; decide +kernel
  slotCount := rfl
  sound := by decide +kernel
  distinct := by decide +kernel
  gains := by decide +kernel
  justReleased := by decide +kernel
  sustain := by decide
  noFault := ⟨rfl, rfl, rfl⟩
  frames := by decide +kernel

end Sys2Proof.Tests
end

