-- ==== Sys2Proof/Proofs/Lerp.lean ====
section
/-!
The interpolation of R9. Both ramps step from `a` by `|b - a| * e / d`; the laws of `lerp` are read off two equations,
one per direction, and two bounds on that step.
-/

namespace Sys2Proof.Machine

/-- A ramp that is not over has not made its whole way. -/
theorem rampStep_lt {n e d : Nat} (hn : 0 < n) (h : e < d) : n * e / d < n :=
  Nat.div_lt_of_lt_mul <| by rw [Nat.mul_comm d]; exact Nat.mul_lt_mul_of_pos_left h hn

theorem rampStep_le (n : Nat) {e d : Nat} (h : e < d) : n * e / d ≤ n :=
  Nat.div_le_of_le_mul <| by rw [Nat.mul_comm d]; exact Nat.mul_le_mul_left n h.le

theorem lerp_of_le {a b : Nat} (h : a ≤ b) (e d : Nat) : lerp a b e d = a + (b - a) * e / d := if_pos h

/-- A level ramp counts as falling too: its step is 0 in both directions. -/
theorem lerp_of_ge {a b : Nat} (h : b ≤ a) (e d : Nat) : lerp a b e d = a - (a - b) * e / d := by
  obtain rfl | hlt := h.eq_or_lt
  · simp [lerp]
  · exact if_neg (Nat.not_le.mpr hlt)

@[simp] theorem lerp_zero_elapsed (a b d : Nat) : lerp a b 0 d = a := by simp [lerp]

theorem lerp_sub_start {a b : Nat} (h : a ≤ b) (e d : Nat) : lerp a b e d - a = (b - a) * e / d := by
  rw [lerp_of_le h, Nat.add_sub_cancel_left]

/-- The subtraction from `a` is not cut off at 0. -/
theorem start_sub_lerp {a b e d : Nat} (h : b ≤ a) (he : e < d) : a - lerp a b e d = (a - b) * e / d := by
  rw [lerp_of_ge h, Nat.sub_sub_self ((rampStep_le _ he).trans (Nat.sub_le a b))]

/-! The four facts of R9. -/

theorem lerp_monotone {a b e e' : Nat} (h : a ≤ b) (d : Nat) (hee : e ≤ e') : lerp a b e d ≤ lerp a b e' d := by
  rw [lerp_of_le h, lerp_of_le h]
  gcongr

theorem lerp_antitone {a b e e' : Nat} (h : b ≤ a) (d : Nat) (hee : e ≤ e') : lerp a b e' d ≤ lerp a b e d := by
  rw [lerp_of_ge h, lerp_of_ge h]
  gcongr

theorem lerp_mem_rising {a b e d : Nat} (h : a ≤ b) (he : e < d) : a ≤ lerp a b e d ∧ lerp a b e d ≤ b := by
  have hstep := rampStep_le (b - a) he
  rw [lerp_of_le h]
  exact ⟨Nat.le_add_right _ _, by omega⟩

theorem lerp_mem_falling {a b e d : Nat} (h : b ≤ a) (he : e < d) : b ≤ lerp a b e d ∧ lerp a b e d ≤ a := by
  have hstep := rampStep_le (a - b) he
  rw [lerp_of_ge h]
  exact ⟨by omega, Nat.sub_le _ _⟩

theorem min_le_lerp_le_max (a b : Nat) {e d : Nat} (he : e < d) :
    min a b ≤ lerp a b e d ∧ lerp a b e d ≤ max a b := by
  obtain h | h := Nat.le_total a b
  · simpa [h] using lerp_mem_rising h he
  · simpa [h] using lerp_mem_falling h he

theorem lerp_lt_end {a b e d : Nat} (h : a < b) (he : e < d) : lerp a b e d < b := by
  have hstep := rampStep_lt (Nat.sub_pos_of_lt h) he
  rw [lerp_of_le h.le]
  omega

theorem end_lt_lerp {a b e d : Nat} (h : b < a) (he : e < d) : b < lerp a b e d := by
  have hstep := rampStep_lt (Nat.sub_pos_of_lt h) he
  rw [lerp_of_ge h.le]
  omega

theorem lerp_ne_end {a b e d : Nat} (h : a ≠ b) (he : e < d) : lerp a b e d ≠ b := by
  obtain h | h := Nat.lt_or_gt_of_ne h
  · exact (lerp_lt_end h he).ne
  · exact (end_lt_lerp h he).ne'

/-- Settles O37: `lerp` is its start plus or minus a step that is a floor, and the step of a ramp that is not over is
less than the whole way. -/
theorem lerpLaws : Obligations.LerpLaws := by
  intro a b e d ha hb he
  have hd : 0 < d := Nat.zero_lt_of_lt he
  obtain ⟨hmin, hmax⟩ := min_le_lerp_le_max a b he
  refine ⟨fun h => ⟨(lerp_mem_rising h he).1, ?_⟩, fun h => ⟨(lerp_mem_falling h.le he).2, ?_⟩, lerp_zero_elapsed a b d,
    fun e' hee _ => ⟨fun h => lerp_monotone h d hee, fun h => lerp_antitone h d hee⟩,
    hmin, hmax, hmax.trans (max_le ha hb), fun h => lerp_ne_end h he, fun h => Nat.one_le_of_lt (end_lt_lerp h he)⟩
  · rw [lerp_sub_start h]
    exact ⟨Nat.div_mul_le_self _ d, Nat.lt_mul_of_div_lt (Nat.lt_succ_self _) hd⟩
  · rw [start_sub_lerp h.le he]
    exact ⟨Nat.div_mul_le_self _ d, Nat.lt_mul_of_div_lt (Nat.lt_succ_self _) hd⟩

end Sys2Proof.Machine
end

