-- ==== Sys2Proof/Proofs/StageCode.lean ====
section
/-!
The stage code of R27. Every operation on a slot either leaves its stage alone or writes one of Idle and the four stages;
such an operation, applied to any of the slots, brings no slot into the codes 5, 6 and 7. A step is made of these.
-/

namespace Sys2Proof.Machine

theorem Stage.code_ofCode : ∀ b : BitVec 3, (Stage.ofCode b).code = b := by decide

theorem Stage.sounding_code_lt (st : Sounding) : (Stage.sounding st).code.toNat < 5 := by cases st <;> decide

theorem Stage.isSounding_eq_false_of_code {st : Stage} (h : 5 ≤ st.code.toNat) : st.isSounding = false := by
  cases st with
  | sounding x => exact absurd (Stage.sounding_code_lt x) (Nat.not_lt.mpr h)
  | _ => rfl

/-! ### Operations on one slot -/

/-- The stage that `f` leaves in a slot is the one it found there, or one that has a name (R27). -/
def WritesNamedStage (f : Slot → Slot) : Prop := ∀ v, (f v).stage = v.stage ∨ (f v).stage.code.toNat < 5

theorem bindSlot_writesNamedStage (key : Num7) : WritesNamedStage (bindSlot key) := fun _ => .inl rfl

theorem startVoice_writesNamedStage (c : Config) (p : Params) (key vel : Num7) :
    WritesNamedStage (startVoice c p key vel) := fun _ => .inr (Stage.sounding_code_lt _)

theorem releaseSlot_writesNamedStage (p : Params) : WritesNamedStage (releaseSlot p) :=
  fun _ => .inr (Stage.sounding_code_lt _)

theorem releaseIfActive_writesNamedStage (p : Params) : WritesNamedStage (releaseIfActive p) := by
  intro v
  unfold releaseIfActive
  split
  · exact releaseSlot_writesNamedStage p v
  · exact .inl rfl

theorem advance_writesNamedStage (p : Params) (st : Sounding) : WritesNamedStage (advance p st) := by
  intro v
  obtain ⟨_, _, h⟩ | ⟨_, _, h⟩ | ⟨_, h⟩ := advance_cases p st v <;> rw [h]
  · exact .inl rfl
  · exact .inr (Stage.sounding_code_lt _)
  · exact .inl rfl

theorem tickSlot_writesNamedStage (p : Params) : WritesNamedStage (tickSlot p) := by
  intro v
  obtain ⟨h, _⟩ | ⟨_, _, _, _, h⟩ | ⟨st, _, _, _, h⟩ := tickSlot_cases p v <;> rw [h]
  · exact .inl rfl
  · exact .inr (by decide)
  · exact advance_writesNamedStage p st v

/-! ### The slot file -/

/-- A slot of `new` in one of the codes 5, 6 and 7 is in `old` at the same index, with the same code. -/
def NoNewUnnamedStage (old new : List Slot) : Prop :=
  ∀ (j : Nat) (v : Slot), new[j]? = some v → 5 ≤ v.stage.code.toNat → ∃ u, old[j]? = some u ∧ u.stage = v.stage

namespace NoNewUnnamedStage

theorem refl (slots : List Slot) : NoNewUnnamedStage slots slots := fun _ v hv _ => ⟨v, hv, rfl⟩

theorem trans {a b c : List Slot} (hab : NoNewUnnamedStage a b) (hbc : NoNewUnnamedStage b c) :
    NoNewUnnamedStage a c := by
  intro j v hv hcode
  obtain ⟨u, hu, huv⟩ := hbc j v hv hcode
  obtain ⟨t, ht, htu⟩ := hab j u hu (huv ▸ hcode)
  exact ⟨t, ht, htu.trans huv⟩

theorem map {f : Slot → Slot} (hf : WritesNamedStage f) (slots : List Slot) :
    NoNewUnnamedStage slots (slots.map f) := by
  intro j v hv hcode
  rw [List.getElem?_map, Option.map_eq_some_iff] at hv
  obtain ⟨u, hu, rfl⟩ := hv
  exact ⟨u, hu, ((hf u).resolve_right (Nat.not_lt.mpr hcode)).symm⟩

theorem modify {f : Slot → Slot} (hf : WritesNamedStage f) (slots : List Slot) (i : Nat) :
    NoNewUnnamedStage slots (slots.modify i f) := by
  intro j v hv hcode
  by_cases hij : i = j
  · subst hij
    rw [List.getElem?_modify_eq, Option.map_eq_map, ← List.getElem?_map] at hv
    exact map hf slots i v hv hcode
  · rw [List.getElem?_modify_ne f slots hij] at hv
    exact ⟨v, hv, rfl⟩

end NoNewUnnamedStage

/-! ### Commands and steps -/

theorem resetBlock_stage {u : State} {v : Slot} (hv : v ∈ (resetBlock u).slots) : v.stage = .idle := by
  rw [resetBlock_slots] at hv
  rw [List.eq_of_mem_replicate hv]
  rfl

theorem resetBlock_noNewUnnamedStage (slots : List Slot) (u : State) :
    NoNewUnnamedStage slots (resetBlock u).slots := by
  intro j v hv hcode
  rw [resetBlock_stage (List.mem_of_getElem? hv)] at hcode
  exact absurd hcode (by decide)

theorem noteOn_noNewUnnamedStage (key vel : Num7) (s : State) :
    NoNewUnnamedStage s.slots (noteOn key vel s).slots := by
  unfold noteOn
  have hstart := startVoice_writesNamedStage s.cfg s.params key vel
  obtain ⟨i, _, h⟩ | ⟨_, j, _, h⟩ | ⟨_, _, h⟩ := allocate_cases key s.slots <;> rw [h]
  · exact .modify hstart s.slots i
  · exact (NoNewUnnamedStage.modify (bindSlot_writesNamedStage key) s.slots j).trans (.modify hstart _ j)
  · exact .refl s.slots

theorem noteOff_noNewUnnamedStage (key : Num7) (s : State) : NoNewUnnamedStage s.slots (noteOff key s).slots := by
  unfold noteOff
  split
  · exact .refl s.slots
  · exact .modify (releaseSlot_writesNamedStage s.params) s.slots _

theorem runTicks_noNewUnnamedStage (n : Nat) (s : State) : NoNewUnnamedStage s.slots (runTicks n s).slots := by
  induction n generalizing s with
  | zero => exact .refl s.slots
  | succ n ih =>
    have hscan : NoNewUnnamedStage s.slots (s.slots.map (tickSlot s.params)) :=
      .map (tickSlot_writesNamedStage s.params) s.slots
    obtain ⟨_, _, h⟩ | ⟨_, _, h⟩ | ⟨_, _, _, _, _, h⟩ | ⟨_, _, _, _, _, h⟩ := runTicks_succ_cases n s <;> rw [h]
    · exact .refl s.slots
    · exact .refl s.slots
    · exact hscan
    · exact hscan.trans (ih _)

theorem goOn_noNewUnnamedStage (r : RenderWait) (s : State) : NoNewUnnamedStage s.slots (goOn r s).slots := by
  unfold goOn
  split <;> exact runTicks_noNewUnnamedStage r.left _

theorem exec_noNewUnnamedStage {i : Instr} {s t : State} (h : exec i s = .next t) :
    NoNewUnnamedStage s.slots t.slots := by
  cases i with
  | note key vel =>
    change execNote key vel s = .next t at h
    unfold execNote at h
    split at h <;> obtain rfl := Host.Outcome.next.inj h
    · exact noteOff_noNewUnnamedStage key s
    · exact noteOn_noNewUnnamedStage key vel s
  | ctrl id raw =>
    obtain rfl := Host.Outcome.next.inj h
    exact .refl s.slots
  | asoff =>
    obtain rfl := Host.Outcome.next.inj h
    exact .map (releaseIfActive_writesNamedStage s.params) s.slots
  | render n =>
    obtain rfl := Host.Outcome.next.inj h
    exact runTicks_noNewUnnamedStage n s

theorem step_noNewUnnamedStage {s t : State} (h : step s = .next t) : NoNewUnnamedStage s.slots t.slots := by
  obtain ⟨_, ⟨_, _, _, rfl⟩ | ⟨_, r, _, hwait⟩ | ⟨_, _, hready⟩⟩ := step_next_cases h
  case inl => exact resetBlock_noNewUnnamedStage _ _
  case inr.inl =>
    obtain ⟨_, rfl⟩ | ⟨_, _, _, rfl⟩ | ⟨_, _, rfl⟩ := hwait
    · exact goOn_noNewUnnamedStage r s
    · exact resetBlock_noNewUnnamedStage _ _
    · exact .refl _
  case inr.inr =>
    obtain ⟨_, rfl⟩ | ⟨_, rest, _, _, _, hexec⟩ | ⟨_, _, _, _, rfl⟩ | ⟨_, _, rfl⟩ | ⟨w, k, b, rest, _, rfl⟩ := hready
    · exact .refl _
    · exact exec_noNewUnnamedStage (s := s.withPort rest) hexec
    · exact .refl s.slots
    · exact resetBlock_noNewUnnamedStage _ _
    · obtain ⟨u, hu⟩ := abandon_is_reset w k b (s.withPort rest)
      rw [hu]
      exact resetBlock_noNewUnnamedStage _ u

/-! ### The pre-check -/

theorem exists_lowestBad {slots : List Slot} {v : Slot} (hv : v ∈ slots) (hbad : badSlot v = true) :
    ∃ i, lowestBad slots = some i := by
  refine Option.ne_none_iff_exists'.mp fun hnone => ?_
  have hgood := (lowestBad_eq_none_iff slots).mp hnone v hv
  exact Bool.false_ne_true (hgood.symm.trans hbad)

/-- Settles O51: no operation writes a code above 4, and the pre-check of a tick takes an active slot that holds one
for a bad slot. -/
theorem stageEncoding : Obligations.StageEncoding := by
  refine ⟨Stage.ofCode_code, Stage.code_ofCode, rfl, rfl, rfl, rfl, rfl, ?_, fun s t => step_noNewUnnamedStage, ?_⟩
  · intro u v hv
    rw [resetBlock_stage hv]
    rfl
  · intro n s v hv hvalid hcode
    have hbad : badSlot v = true := (badSlot_iff v).mpr ⟨hvalid, Stage.isSounding_eq_false_of_code hcode⟩
    obtain ⟨i, hi⟩ := exists_lowestBad hv hbad
    exact ⟨raiseInvalidStage i s, congrArg Host.Outcome.next (runTicks_succ_of_bad hi), rfl, rfl, rfl⟩

end Sys2Proof.Machine
end

