-- ==== Sys2Proof/Proofs/Decoder.lean ====
section
/-!
The decoder of R88, read once. A word is a 4-bit opcode in front of 28 bits, so the comparison `w AND mask = match` of a
row of R86 is the test of R88: the opcode, and the row's zero bits. What a word decodes to is then five equivalences, one
per row and one for the illegal words, and the statements about words and their operands are read off them.
-/

namespace Sys2Proof

/-! ### The opcode and the operand fields, as arithmetic on the word (R80, R85) -/

theorem extractLsb'_eq_div_mod (w : Word) (start len : Nat) :
    (w.extractLsb' start len).toNat = w.toNat / 2 ^ start % 2 ^ len := by
  rw [BitVec.extractLsb'_toNat, Nat.shiftRight_eq_div_pow]

theorem opField_toNat (w : Word) : (opField w).toNat = w.toNat / 2 ^ 28 := by
  have hw : w.toNat < 2 ^ 32 := w.isLt
  rw [opField, extractLsb'_eq_div_mod]
  omega

theorem opField_eq_iff (w : Word) (op : BitVec 4) : opField w = op ↔ w.toNat / 2 ^ 28 = op.toNat := by
  rw [← BitVec.toNat_inj, opField_toNat]

theorem keyField_toNat (w : Word) : (keyField w).toNat = w.toNat / 2 ^ 8 % 2 ^ 7 := extractLsb'_eq_div_mod w 8 7

theorem velField_toNat (w : Word) : (velField w).toNat = w.toNat % 2 ^ 7 := by
  rw [velField, extractLsb'_eq_div_mod, Nat.pow_zero, Nat.div_one]

theorem idField_toNat (w : Word) : (idField w).toNat = w.toNat / 2 ^ 16 % 2 ^ 7 := extractLsb'_eq_div_mod w 16 7

theorem countField_eq (w : Word) : countField w = w.toNat % 2 ^ 16 := by
  rw [countField, extractLsb'_eq_div_mod, Nat.pow_zero, Nat.div_one]

/-- `sext_16` of R85: the sign bit is bit 15. -/
theorem rawField_eq (w : Word) :
    rawField w = if w.toNat % 2 ^ 16 < 2 ^ 15 then ((w.toNat % 2 ^ 16 : Nat) : Int)
      else ((w.toNat % 2 ^ 16 : Nat) : Int) - 2 ^ 16 := by
  rw [rawField, BitVec.toInt_eq_toNat_cond, extractLsb'_eq_div_mod, Nat.pow_zero, Nat.div_one]
  split_ifs <;> omega

/-! ### A row of the opcode map (R86) is the opcode and the zero bits of R88 -/

theorem opField_append_low (w : Word) : opField w ++ w.extractLsb' 0 28 = w :=
  BitVec.extractLsb'_append_extractLsb' (w := 4) (len := 28)

theorem and_append (w : Word) (hi : BitVec 4) (lo : BitVec 28) :
    w &&& (hi ++ lo) = (opField w &&& hi) ++ (w.extractLsb' 0 28 &&& lo) := by
  rw [← BitVec.and_append, opField_append_low]

theorem append_eq_append_iff (a c : BitVec 4) (b d : BitVec 28) : a ++ b = c ++ d ↔ a = c ∧ b = d := by
  refine ⟨fun h => ⟨?_, ?_⟩, fun ⟨hac, hbd⟩ => hac ▸ hbd ▸ rfl⟩
  · simpa only [BitVec.extractLsb'_append_eq_left] using congrArg (BitVec.extractLsb' 28 4) h
  · simpa only [BitVec.extractLsb'_append_eq_right] using congrArg (BitVec.extractLsb' 0 28) h

/-- A mask that takes the whole opcode and the bits `zero`, and a match that is 0 on them. -/
theorem and_append_eq_iff (w : Word) (op : BitVec 4) (zero : BitVec 28) :
    w &&& (0xF#4 ++ zero) = op ++ 0#28 ↔ opField w = op ∧ w &&& (0#4 ++ zero) = 0#4 ++ 0#28 := by
  have hop : opField w &&& 0xF#4 = opField w := BitVec.and_allOnes
  simp only [and_append, append_eq_append_iff, hop, BitVec.and_zero, true_and]

theorem note_row_iff (w : Word) :
    w &&& 0xFFFF8080#32 = 0x10000000#32 ↔ opField w = 1 ∧ w &&& 0x0FFF8080#32 = 0 :=
  and_append_eq_iff w 1 0xFFF8080

theorem ctrl_row_iff (w : Word) :
    w &&& 0xFF800000#32 = 0x20000000#32 ↔ opField w = 2 ∧ w &&& 0x0F800000#32 = 0 :=
  and_append_eq_iff w 2 0xF800000

theorem asoff_row_iff (w : Word) :
    w &&& 0xFFFFFFFF#32 = 0x30000000#32 ↔ opField w = 3 ∧ w &&& 0x0FFFFFFF#32 = 0 :=
  and_append_eq_iff w 3 0xFFFFFFF

theorem render_row_iff (w : Word) :
    w &&& 0xFFFF0000#32 = 0x40000000#32 ↔ opField w = 4 ∧ w &&& 0x0FFF0000#32 = 0 :=
  and_append_eq_iff w 4 0xFFF0000

/-! ### What a word decodes to -/

/-- The decode procedure, once: the word is in one row of R86 and decodes to its command, or it is in none. -/
theorem decode_cases (w : Word) :
    (w &&& 0xFFFF8080#32 = 0x10000000#32 ∧ opField w = 1 ∧
      decode w = .command (.note (keyField w) (velField w))) ∨
    (w &&& 0xFF800000#32 = 0x20000000#32 ∧ opField w = 2 ∧ decode w = .command (.ctrl (idField w) (rawField w))) ∨
    (w &&& 0xFFFFFFFF#32 = 0x30000000#32 ∧ opField w = 3 ∧ decode w = .command .asoff) ∨
    (w &&& 0xFFFF0000#32 = 0x40000000#32 ∧ opField w = 4 ∧ decode w = .command (.render (countField w))) ∨
    (w &&& 0xFFFF8080#32 ≠ 0x10000000#32 ∧ w &&& 0xFF800000#32 ≠ 0x20000000#32 ∧
      w &&& 0xFFFFFFFF#32 ≠ 0x30000000#32 ∧ w &&& 0xFFFF0000#32 ≠ 0x40000000#32 ∧ decode w = .illegal) := by
  simp only [decode, ← note_row_iff, ← ctrl_row_iff, ← asoff_row_iff, ← render_row_iff]
  split_ifs with hnote hctrl hasoff hrender
  · exact .inl ⟨hnote, ((note_row_iff w).mp hnote).1, rfl⟩
  · exact .inr (.inl ⟨hctrl, ((ctrl_row_iff w).mp hctrl).1, rfl⟩)
  · exact .inr (.inr (.inl ⟨hasoff, ((asoff_row_iff w).mp hasoff).1, rfl⟩))
  · exact .inr (.inr (.inr (.inl ⟨hrender, ((render_row_iff w).mp hrender).1, rfl⟩)))
  · exact .inr (.inr (.inr (.inr ⟨hnote, hctrl, hasoff, hrender, rfl⟩)))

/-! A word of another row is not of this one, because its opcode differs. -/

theorem decode_eq_note_iff (w : Word) (key vel : Num7) :
    decode w = .command (.note key vel) ↔
      w &&& 0xFFFF8080#32 = 0x10000000#32 ∧ keyField w = key ∧ velField w = vel := by
  obtain ⟨hrow, _, hd⟩ | ⟨_, hop, hd⟩ | ⟨_, hop, hd⟩ | ⟨_, hop, hd⟩ | ⟨hrow, _, _, _, hd⟩ := decode_cases w
  case inl | inr.inr.inr.inr => simp [hd, hrow]
  all_goals simp [hd, note_row_iff, hop]

theorem decode_eq_ctrl_iff (w : Word) (id : Num7) (raw : Int) :
    decode w = .command (.ctrl id raw) ↔
      w &&& 0xFF800000#32 = 0x20000000#32 ∧ idField w = id ∧ rawField w = raw := by
  obtain ⟨_, hop, hd⟩ | ⟨hrow, _, hd⟩ | ⟨_, hop, hd⟩ | ⟨_, hop, hd⟩ | ⟨_, hrow, _, _, hd⟩ := decode_cases w
  case inr.inl | inr.inr.inr.inr => simp [hd, hrow]
  all_goals simp [hd, ctrl_row_iff, hop]

theorem decode_eq_asoff_iff (w : Word) :
    decode w = .command .asoff ↔ w &&& 0xFFFFFFFF#32 = 0x30000000#32 := by
  obtain ⟨_, hop, hd⟩ | ⟨_, hop, hd⟩ | ⟨hrow, _, hd⟩ | ⟨_, hop, hd⟩ | ⟨_, _, hrow, _, hd⟩ := decode_cases w
  case inr.inr.inl | inr.inr.inr.inr => simp only [hd, hrow, reduceCtorEq]
  all_goals
    rw [hd, asoff_row_iff, hop]
    simp

theorem decode_eq_render_iff (w : Word) (n : Nat) :
    decode w = .command (.render n) ↔ w &&& 0xFFFF0000#32 = 0x40000000#32 ∧ countField w = n := by
  obtain ⟨_, hop, hd⟩ | ⟨_, hop, hd⟩ | ⟨_, hop, hd⟩ | ⟨hrow, _, hd⟩ | ⟨_, _, _, hrow, hd⟩ := decode_cases w
  case inr.inr.inr.inl | inr.inr.inr.inr => simp [hd, hrow]
  all_goals simp [hd, render_row_iff, hop]

theorem decode_eq_illegal_iff (w : Word) :
    decode w = .illegal ↔
      w &&& 0xFFFF8080#32 ≠ 0x10000000#32 ∧ w &&& 0xFF800000#32 ≠ 0x20000000#32 ∧
      w &&& 0xFFFFFFFF#32 ≠ 0x30000000#32 ∧ w &&& 0xFFFF0000#32 ≠ 0x40000000#32 := by
  obtain ⟨hrow, _, hd⟩ | ⟨hrow, _, hd⟩ | ⟨hrow, _, hd⟩ | ⟨hrow, _, hd⟩ | ⟨h1, h2, h3, h4, hd⟩ := decode_cases w
  case inr.inr.inr.inr => exact iff_of_true hd ⟨h1, h2, h3, h4⟩
  all_goals
    rw [hd, hrow]
    simp

/-- R87: the illegal words by their opcode and their zero bits. -/
theorem decode_eq_illegal_iff_op (w : Word) :
    decode w = .illegal ↔
      w.toNat / 2 ^ 28 = 0 ∨ 5 ≤ w.toNat / 2 ^ 28 ∨
      (w.toNat / 2 ^ 28 = 1 ∧ w &&& 0x0FFF8080#32 ≠ 0) ∨ (w.toNat / 2 ^ 28 = 2 ∧ w &&& 0x0F800000#32 ≠ 0) ∨
      (w.toNat / 2 ^ 28 = 3 ∧ w &&& 0x0FFFFFFF#32 ≠ 0) ∨ (w.toNat / 2 ^ 28 = 4 ∧ w &&& 0x0FFF0000#32 ≠ 0) := by
  simp only [decode_eq_illegal_iff, ne_eq, note_row_iff, ctrl_row_iff, asoff_row_iff, render_row_iff, opField_eq_iff]
  generalize w.toNat / 2 ^ 28 = op
  obtain h | h | h | h | h | h : op = 0 ∨ op = 1 ∨ op = 2 ∨ op = 3 ∨ op = 4 ∨ 5 ≤ op := by omega
  case inr.inr.inr.inr.inr =>
    have hother (k : Nat) (hk : k < 5) : op ≠ k := (Nat.lt_of_lt_of_le hk h).ne'
    simp [h, hother]
  all_goals simp [h]

/-! ### The statements about words -/

/-- Settles O4: the rows and the illegal words are read off the equivalences of `decode`; the last clause is R87's. -/
theorem decodeFollowsTheOpcodeMap : Obligations.DecodeFollowsTheOpcodeMap := by
  intro w
  refine ⟨?_, ?_, decode_eq_asoff_iff w, ?_, decode_eq_illegal_iff w,
    fun h => (decode_eq_illegal_iff_op w).mpr (h.imp_right .inl)⟩
  · simp [decode_eq_note_iff]
  · simp [decode_eq_ctrl_iff]
  · simp [decode_eq_render_iff]

/-- Settles O5: an operand is its field, and a field is a quotient and a remainder of the word. -/
theorem operandsAreTheirFields : Obligations.OperandsAreTheirFields := by
  intro w
  refine ⟨fun key vel h => ?_, fun id raw h => ?_, fun n h => ?_⟩
  · obtain ⟨_, rfl, rfl⟩ := (decode_eq_note_iff w key vel).mp h
    exact ⟨keyField_toNat w, velField_toNat w⟩
  · obtain ⟨_, rfl, rfl⟩ := (decode_eq_ctrl_iff w id raw).mp h
    exact ⟨idField_toNat w, rawField_eq w⟩
  · obtain ⟨_, rfl⟩ := (decode_eq_render_iff w n).mp h
    exact countField_eq w

end Sys2Proof

namespace Sys2Proof.Machine

/-- A ready block executes the word at the front of the port, and takes it (R150). -/
theorem step_of_ready_word {s : State} {w : Word} {rest : List HostEvent} (h : s.Ready)
    (hp : s.port = .word w :: rest) : step s = takeWord w (s.withPort rest) := by
  rw [step_of_ready h, readyStep, hp]

theorem takeWord_of_illegal {w : Word} (hd : decode w = .illegal) (s : State) :
    takeWord w s = .next (dropIllegal s) := by
  rw [takeWord, hd]

/-- Settles O6: the illegal words by opcode and zero bits, and the step that takes and drops one. -/
theorem illegalWordsAreDropped : Obligations.IllegalWordsAreDropped := by
  refine ⟨decode_eq_illegal_iff_op, fun s w rest hready hport hd => ?_⟩
  rw [step_of_ready_word hready hport, takeWord_of_illegal hd, dropIllegal_eq, State.withPort_status]

end Sys2Proof.Machine
end

