-- ==== Sys2Proof/Proofs/Pseudo.lean ====
section
/-!
The pseudo-commands of R90. The assembler's only test is R89's range, so an expansion is the command itself where its
operands are in range; the four identifiers of a legal configuration fit in their 7-bit field.
-/

namespace Sys2Proof.Machine

theorem assemble_of_wellFormed {i : Instr} (h : WellFormed i = true) : assemble i = some i := if_pos h

theorem wellFormed_of_assemble {i j : Instr} (h : assemble i = some j) : WellFormed j = true := by
  obtain ⟨hwf, hij⟩ := Option.ite_none_right_eq_some.mp h
  obtain rfl := Option.some.inj hij
  exact hwf

/-- Every expansion comes out of the assembler. -/
theorem expand_wellFormed {c : Config} {q : Pseudo} {i : Instr} (h : expand c q = some i) : WellFormed i = true := by
  cases q with
  | noteon key vel => exact wellFormed_of_assemble (Option.ite_none_left_eq_some.mp h).2
  | _ => exact wellFormed_of_assemble h

/-- R4: the control identifiers are 7-bit numbers. -/
theorem configOk_controls {c : Config} (h : configOk c = true) :
    c.ccAttack ≤ 127 ∧ c.ccDecay ≤ 127 ∧ c.ccSustain ≤ 127 ∧ c.ccRelease ≤ 127 := by
  simp only [configOk, Bool.and_eq_true, decide_eq_true_eq] at h
  obtain ⟨⟨⟨⟨⟨⟨_, hcontrols⟩, _⟩, _⟩, _⟩, _⟩, _⟩ := h
  exact hcontrols

/-- A parameter spelling reaches its register's identifier. -/
theorem assemble_ctrl {cc : Nat} (hcc : cc ≤ 127) {v : Int} (hlo : -32768 ≤ v) (hhi : v ≤ 32767) :
    ∃ id : Num7, assemble (.ctrl (BitVec.ofNat 7 cc) v) = some (.ctrl id v) ∧ id.toNat = cc := by
  refine ⟨_, assemble_of_wellFormed (decide_eq_true ⟨hlo, hhi⟩), ?_⟩
  rw [BitVec.toNat_ofNat]
  omega

theorem framesOf_renderz_zeros {c : Config} {n : Nat} {f : Frame} (hf : f ∈ framesOf c (.renderz n)) :
    f.length = c.nch ∧ ∀ a ∈ f, a.toInt = 0 := by
  obtain rfl := List.eq_of_mem_replicate hf
  refine ⟨List.length_replicate, fun a ha => ?_⟩
  rw [List.eq_of_mem_replicate ha]
  rfl

/-- Settles O8: an expansion is an accepted command, and the parameter spellings share one lemma. -/
theorem pseudoCommandsExpand : Obligations.PseudoCommandsExpand := by
  intro c hc
  obtain ⟨hattack, hdecay, hsustain, hrelease⟩ := configOk_controls hc
  refine ⟨fun key vel => rfl, fun key => rfl, fun v hlo hhi => ?_, fun n hn => ?_, fun q i => expand_wellFormed⟩
  · exact ⟨assemble_ctrl hattack hlo hhi, assemble_ctrl hdecay hlo hhi, assemble_ctrl hsustain hlo hhi,
      assemble_ctrl hrelease hlo hhi⟩
  · exact ⟨assemble_of_wellFormed (decide_eq_true hn), List.length_replicate, fun f => framesOf_renderz_zeros⟩

end Sys2Proof.Machine
end

