-- ==== Sys2Proof/Proofs/Release.lean ====
section
/-!
Note-off (R107, R153). The search of the slot file picks the slot, and what note-off leaves there is `releaseSlot` of it.
-/

namespace Sys2Proof.Machine

theorem exec_note_zero (key : Num7) (s : State) : exec (.note key 0) s = .next (noteOff key s) :=
  show execNote key 0 s = _ from if_pos rfl

/-- A key with a slot: the lowest slot bound to it is released. -/
theorem noteOff_of_lowest {key : Num7} {s : State} {i : Nat} {v : Slot}
    (hi : LowestSlot (Slot.boundTo key) s.slots i) (hv : s.slots[i]? = some v) :
    noteOff key s = s.withSlots (s.slots.set i (releaseSlot s.params v)) := by
  rw [noteOff, (find_eq_some_iff key s.slots i).mpr hi]
  simp [List.modify_eq_set_getElem?, hv]

/-- A key with no slot is no error. -/
theorem noteOff_of_noSlot {key : Num7} {s : State} (h : NoSlot (Slot.boundTo key) s.slots) : noteOff key s = s := by
  rw [noteOff, (find_eq_none_iff key s.slots).mpr h]

/-- R108 right after a release: the slot is done if its gain was snapped to 0 or was 0 before. -/
theorem isDone_releaseSlot_iff (p : Params) (v : Slot) :
    isDone (releaseSlot p v) = true ↔ p.release = 0 ∨ v.gain = 0 := by
  simp only [isDone_iff, releaseSlot_gain, releaseSlot_stage, and_true, ite_eq_left_iff, or_iff_not_imp_left]

/-- Settles O29: the slot that the search finds is replaced by its release. -/
theorem noteOffReleasesTheSlot : Obligations.NoteOffReleasesTheSlot := by
  intro s key
  refine ⟨fun i v hi hv => ⟨releaseSlot s.params v, ?_, rfl, isDone_releaseSlot_iff s.params v⟩, fun hno => ?_⟩
  · rw [exec_note_zero, noteOff_of_lowest hi hv]
  · rw [exec_note_zero, noteOff_of_noSlot hno]

end Sys2Proof.Machine
end

