-- ==== Sys2Proof/Proofs/Advance.lean ====
section
/-!
`advance` (R100 to R105), one equation per case: a saturated stage that is its own successor, a saturated stage that gives
way to the next one, and a ramp that is not over. The effect of a changed parameter (R111) is read off these equations,
because `advance` takes the registers as they stand and the count as it is.
-/

namespace Sys2Proof.Machine

/-- Settles O38: the three cases are the branches of `initialStage`, and none of them answers Release. -/
theorem initialStageSkipsZeroStages : Obligations.InitialStageSkipsZeroStages := by
  intro p
  refine ⟨fun ha => if_pos ha, fun ha hd => (if_neg (not_not.mpr ha)).trans (if_pos hd),
    fun ha hd => (if_neg (not_not.mpr ha)).trans (if_neg (not_not.mpr hd)), ?_⟩
  unfold initialStage
  split_ifs <;> decide

/-! ### The three cases of `advance` -/

theorem advanceSlot_of_sounding {v : Slot} {st : Sounding} (hst : v.stage = .sounding st) (p : Params) :
    advanceSlot p v = advance p st v := by
  rw [advanceSlot, hst]

/-- Sustain and Release, saturated (R104). -/
theorem advance_of_settled {p : Params} {st : Sounding} {v : Slot} (hd : duration p st ≤ v.elapsed.toNat)
    (hn : nextStage p st = st) : advance p st v = finishSample (endLevel p st) v := by
  rw [advance, if_pos hd, if_pos hn]

/-- Attack and Decay, saturated (R103). -/
theorem advance_of_saturated {p : Params} {st n : Sounding} {v : Slot} (hd : duration p st ≤ v.elapsed.toNat)
    (hn : nextStage p st = n) (hne : n ≠ st) :
    advance p st v = finishSample (startLevel p v.gain n) (enterStage n v) := by
  subst hn
  rw [advance, if_pos hd, if_neg hne]

/-- A ramp that is not over (R104). -/
theorem advance_of_ramp {p : Params} {st : Sounding} {v : Slot} (he : v.elapsed.toNat < duration p st) :
    advance p st v =
      finishSample (lerp (startLevel p v.las st) (endLevel p st) v.elapsed.toNat (duration p st)) v := by
  rw [advance, if_neg (Nat.not_le.mpr he)]

/-! ### The gain that is stored -/

@[simp] theorem toGain_of_gain (g : Gain) : toGain g.toNat = g :=
  (BitVec.ofNat_toNat 16 g).trans (BitVec.setWidth_eq g)

theorem one_lt_two_pow_16 : Config.one < 2 ^ 16 := by decide

theorem startLevel_lt (p : Params) (las : Gain) (st : Sounding) : startLevel p las st < 2 ^ 16 := by
  cases st with
  | attack => exact Nat.two_pow_pos 16
  | decay => exact one_lt_two_pow_16
  | sustain => exact p.sustain.isLt
  | release => exact las.isLt

theorem endLevel_lt (p : Params) (st : Sounding) : endLevel p st < 2 ^ 16 := by
  cases st with
  | attack => exact one_lt_two_pow_16
  | release => exact Nat.two_pow_pos 16
  | _ => exact p.sustain.isLt

/-- On a ramp the gain register holds the interpolated value in full. -/
theorem advance_gain_of_ramp {p : Params} {st : Sounding} {v : Slot} (he : v.elapsed.toNat < duration p st) :
    (advance p st v).gain.toNat =
      lerp (startLevel p v.las st) (endLevel p st) v.elapsed.toNat (duration p st) := by
  have hmax := (min_le_lerp_le_max (startLevel p v.las st) (endLevel p st) he).2
  rw [advance_of_ramp he, finishSample_gain,
    toGain_toNat (hmax.trans_lt (max_lt (startLevel_lt p v.las st) (endLevel_lt p st)))]

theorem advance_stage_of_ramp {p : Params} {st : Sounding} {v : Slot} (he : v.elapsed.toNat < duration p st) :
    (advance p st v).stage = v.stage := by
  rw [advance_of_ramp he, finishSample_stage]

theorem advance_attack_gain {p : Params} {v : Slot} (he : v.elapsed.toNat < p.attack.toNat) :
    (advance p .attack v).gain.toNat = 32768 * v.elapsed.toNat / p.attack.toNat :=
  (advance_gain_of_ramp he).trans <| (lerp_of_le (Nat.zero_le _) _ _).trans (Nat.zero_add _)

theorem advance_decay_gain {p : Params} {v : Slot} (hsus : p.sustain.toNat ≤ 32768)
    (he : v.elapsed.toNat < p.decay.toNat) :
    (advance p .decay v).gain.toNat = 32768 - (32768 - p.sustain.toNat) * v.elapsed.toNat / p.decay.toNat :=
  (advance_gain_of_ramp he).trans (lerp_of_ge hsus _ _)

theorem advance_release_gain {p : Params} {v : Slot} (he : v.elapsed.toNat < p.release.toNat) :
    (advance p .release v).gain.toNat = v.las.toNat - v.las.toNat * v.elapsed.toNat / p.release.toNat :=
  (advance_gain_of_ramp he).trans (lerp_of_ge (Nat.zero_le _) _ _)

theorem advance_sustain (p : Params) (v : Slot) : advance p .sustain v = finishSample p.sustain.toNat v :=
  advance_of_settled (Nat.zero_le _) rfl

/-! ### A tick that ends a release -/

theorem tickSlot_of_done {p : Params} {v : Slot} {st : Sounding} (hv : v.valid = true) (hst : v.stage = .sounding st)
    (hd : isDone (advance p st v) = true) : tickSlot p v = Slot.free := by
  rw [tickSlot, if_pos hv, hst]
  exact if_pos hd

/-- Release saturated (R104, R108): the gain is 0 and the tick frees the slot. -/
theorem release_saturated {p : Params} {v : Slot} (hst : v.stage = .sounding .release)
    (hd : p.release.toNat ≤ v.elapsed.toNat) :
    (advance p .release v).gain = 0 ∧ (v.valid = true → tickSlot p v = Slot.free) := by
  have hadv : advance p .release v = finishSample 0 v := advance_of_settled hd rfl
  have hgain : (advance p .release v).gain = 0 := by rw [hadv]; rfl
  refine ⟨hgain, fun hv => tickSlot_of_done hv hst ((isDone_iff _).mpr ⟨hgain, ?_⟩)⟩
  rw [hadv, finishSample_stage, hst]

/-! ### A duration that is raised on the way (R111 (b)) -/

/-- The same way in more samples: the part that is made by sample `e` shrinks. -/
theorem rampStep_antitone_duration (n : Nat) {e d d' : Nat} (he : e < d) (hdd : d ≤ d') : n * e / d' ≤ n * e / d :=
  Nat.div_le_div_left hdd (Nat.zero_lt_of_lt he)

/-- Settles O42: each clause is one case of `advance`, with the registers as they now stand. The clauses are those of
R111: (a) with (c) for a saturated Attack, then (a) for Decay, (a) with (e) for Release, (b) for Attack, (b) with (d) for
Decay, (b) for Release, and (c) with (d) for Sustain. -/
theorem changedParameterActsAtTheNextAdvance : Obligations.ChangedParameterActsAtTheNextAdvance := by
  refine ⟨fun id raw s => ⟨_, rfl, rfl⟩, fun p v hsus => ?_⟩
  refine ⟨fun hst hd => ⟨fun hdecay => ?_, fun hdecay => ?_⟩, fun hst hd => ?_, fun hst hd => ?_,
    fun hst q he hpq => ?_, fun hst he => ?_, fun hst q he hpq => ?_, fun hst => ?_⟩
    <;> simp only [advanceSlot_of_sounding hst]
  · rw [advance_of_saturated (st := .attack) hd (if_neg hdecay) (by decide)]
    exact ⟨rfl, rfl⟩
  · rw [advance_of_saturated (st := .attack) hd (if_pos hdecay) (by decide)]
    exact ⟨rfl, toGain_of_gain p.sustain⟩
  · rw [advance_of_saturated (st := .decay) (n := .sustain) hd rfl (by decide)]
    exact ⟨rfl, toGain_of_gain p.sustain⟩
  · exact release_saturated hst hd
  · have hq := he.trans_le hpq
    rw [advance_attack_gain he, advance_attack_gain hq]
    exact ⟨rfl, rampStep_antitone_duration _ he hpq, advance_stage_of_ramp hq⟩
  · refine ⟨advance_decay_gain hsus he, advance_stage_of_ramp he, fun d hpd => ?_⟩
    rw [advance_decay_gain hsus he, advance_decay_gain (p := { p with decay := d }) hsus (he.trans_le hpd)]
    exact Nat.sub_le_sub_left (rampStep_antitone_duration _ he hpd) _
  · have hq := he.trans_le hpq
    rw [advance_release_gain he, advance_release_gain hq]
    exact ⟨rfl, Nat.sub_le_sub_left (rampStep_antitone_duration _ he hpq) _, advance_stage_of_ramp hq⟩
  · simp only [advance_sustain, finishSample_gain, finishSample_stage, toGain_of_gain]
    exact ⟨trivial, hst, fun _ => trivial⟩

end Sys2Proof.Machine
end

