-- ==== Sys2Proof/Proofs/Phase.lean ====
section
/-!
The phase of an active slot (R122, R123). A tick that leaves the slot active advances the envelope, which does not touch
the oscillator, and adds `pinc` to the phase; so `m` such ticks add `m * pinc`.
-/

namespace Sys2Proof.Machine

theorem waveOf_eq (v : Slot) : waveOf v = wave (v.phase.toNat / 2 ^ 22) := congrArg wave (waveIndex_eq v.phase)

theorem stepPhase_phase_toNat (v : Slot) :
    (stepPhase v).phase.toNat = (v.phase.toNat + v.pinc.toNat) % 2 ^ 32 := BitVec.toNat_add v.phase v.pinc

theorem voiceProduct_of_sounding {v : Slot} {st : Sounding} (hv : v.valid = true) (hst : v.stage = .sounding st)
    (p : Params) : voiceProduct p v = ((advance p st v).gain.toNat : Int) * waveOf v := by
  rw [voiceProduct, if_pos hv, hst]

/-- Settles O44: `stepPhase` is one modular addition to one field, and the product takes its waveform value from the slot
before it. -/
theorem oscillatorReadsBeforeItSteps : Obligations.OscillatorReadsBeforeItSteps := by
  refine fun v => ⟨stepPhase_phase_toNat v, rfl, waveOf_eq v, fun p st hv hst => ?_⟩
  rw [voiceProduct_of_sounding hv hst, waveOf_eq]

/-! ### Ticks that leave the slot active -/

theorem advance_isSounding {v : Slot} (hs : v.stage.isSounding = true) (p : Params) (st : Sounding) :
    (advance p st v).stage.isSounding = true := by
  obtain ⟨_, _, h⟩ | ⟨_, _, h⟩ | ⟨_, h⟩ := advance_cases p st v <;> rw [h]
  · exact hs
  · rfl
  · exact hs

theorem tickSlot_of_not_valid {v : Slot} (hv : v.valid = false) (p : Params) : tickSlot p v = v :=
  if_neg (Bool.eq_false_iff.mp hv)

/-- No tick starts a voice. -/
theorem valid_of_tickSlot_valid {p : Params} {v : Slot} (h : (tickSlot p v).valid = true) : v.valid = true := by
  by_contra hv
  rw [tickSlot_of_not_valid (Bool.eq_false_iff.mpr hv)] at h
  exact hv h

/-- A tick that leaves a slot active has neither passed it over nor reclaimed it. -/
theorem tickSlot_of_stays_valid {p : Params} {v : Slot} (hs : v.stage.isSounding = true)
    (h : (tickSlot p v).valid = true) : ∃ st, tickSlot p v = stepPhase (advance p st v) := by
  obtain ⟨_, hv | hns⟩ | ⟨_, _, _, _, hfree⟩ | ⟨st, _, _, _, hstep⟩ := tickSlot_cases p v
  · exact absurd (valid_of_tickSlot_valid h) (Bool.eq_false_iff.mp hv)
  · exact absurd hs (Bool.eq_false_iff.mp hns)
  · exact absurd (hfree ▸ h) (by decide)
  · exact ⟨st, hstep⟩

/-- The induction needs the stage and the increment too: they say that the next tick steps the phase, and by how much. -/
theorem iterate_tickSlot_of_stays_valid {p : Params} {v : Slot} (hs : v.stage.isSounding = true) (m : Nat)
    (h : ((tickSlot p)^[m] v).valid = true) :
    ((tickSlot p)^[m] v).stage.isSounding = true ∧ ((tickSlot p)^[m] v).pinc = v.pinc ∧
      ((tickSlot p)^[m] v).phase.toNat = (v.phase.toNat + m * v.pinc.toNat) % 2 ^ 32 := by
  induction m with
  | zero => exact ⟨hs, rfl, by rw [Nat.zero_mul]; exact (Nat.mod_eq_of_lt v.phase.isLt).symm⟩
  | succ m ih =>
    rw [Function.iterate_succ_apply'] at h ⊢
    obtain ⟨hsound, hpinc, hphase⟩ := ih (valid_of_tickSlot_valid h)
    obtain ⟨st, hstep⟩ := tickSlot_of_stays_valid hsound h
    rw [hstep]
    refine ⟨advance_isSounding hsound p st, (advance_pinc p st _).trans hpinc, ?_⟩
    rw [stepPhase_phase_toNat, advance_phase, advance_pinc, hpinc, hphase, Nat.mod_add_mod, Nat.succ_mul, Nat.add_assoc]

/-- Settles O45, by induction on the ticks: a slot active at the end was active at each of them. -/
theorem phaseAfterTicks : Obligations.PhaseAfterTicks := by
  intro p v m _ hs h
  obtain ⟨_, _, hphase⟩ := iterate_tickSlot_of_stays_valid hs m h
  exact hphase

end Sys2Proof.Machine
end

