-- ==== Sys2Proof/Proofs/NoteOn.lean ====
section
/-!
Note-on (R134, R152). `allocate` has three answers, one equation each; note-on starts the slot that it is given, so what
it leaves there is `startVoice` of the slot, after `bindSlot` if the slot was free.
-/

namespace Sys2Proof.Machine

theorem modify_eq_set_of_getElem? {slots : List Slot} {i : Nat} {v : Slot} (hv : slots[i]? = some v)
    (f : Slot → Slot) : slots.modify i f = slots.set i (f v) := by
  rw [List.modify_eq_set_getElem?, hv]
  rfl

/-! ### The three answers of `allocate` -/

theorem allocate_of_bound {key : Num7} {slots : List Slot} {i : Nat} (hi : LowestSlot (Slot.boundTo key) slots i) :
    allocate key slots = some (i, slots) := by
  rw [allocate, (find_eq_some_iff key slots i).mpr hi]

theorem allocate_of_free {key : Num7} {slots : List Slot} {j : Nat} (hno : NoSlot (Slot.boundTo key) slots)
    (hj : LowestSlot Slot.isFree slots j) : allocate key slots = some (j, slots.modify j (bindSlot key)) := by
  rw [allocate, (find_eq_none_iff key slots).mpr hno, (firstFree_eq_some_iff slots j).mpr hj]

theorem allocate_of_full {key : Num7} {slots : List Slot} (hno : NoSlot (Slot.boundTo key) slots)
    (hfull : NoSlot Slot.isFree slots) : allocate key slots = none := by
  rw [allocate, (find_eq_none_iff key slots).mpr hno, (firstFree_eq_none_iff slots).mpr hfull]

theorem noSlot_isFree_of_all_valid {slots : List Slot} (h : ∀ v ∈ slots, v.valid = true) : NoSlot Slot.isFree slots :=
  fun v hv => congrArg not (h v hv)

/-! ### Note-on, by what `allocate` answers -/

theorem exec_note_of_ne_zero {vel : Num7} (hvel : vel ≠ 0) (key : Num7) (s : State) :
    exec (.note key vel) s = .next (noteOn key vel s) :=
  show execNote key vel s = _ from if_neg hvel

/-- A retrigger: the slot bound to the key is started again. -/
theorem noteOn_of_bound {key : Num7} {s : State} {i : Nat} {v : Slot} (hi : LowestSlot (Slot.boundTo key) s.slots i)
    (hv : s.slots[i]? = some v) (vel : Num7) :
    noteOn key vel s = s.withSlots (s.slots.set i (startVoice s.cfg s.params key vel v)) := by
  rw [noteOn, allocate_of_bound hi]
  exact congrArg s.withSlots (modify_eq_set_of_getElem? hv _)

/-- A new key: the lowest free slot is bound, then started. -/
theorem noteOn_of_free {key : Num7} {s : State} {j : Nat} {v : Slot} (hno : NoSlot (Slot.boundTo key) s.slots)
    (hj : LowestSlot Slot.isFree s.slots j) (hv : s.slots[j]? = some v) (vel : Num7) :
    noteOn key vel s =
      s.withSlots (s.slots.set j (startVoice s.cfg s.params key vel (bindSlot key v))) := by
  rw [noteOn, allocate_of_free hno hj]
  refine congrArg s.withSlots ?_
  rw [List.modify_modify_eq, modify_eq_set_of_getElem? hv]
  rfl

/-- A full pool: the note is dropped. -/
theorem noteOn_of_full {key : Num7} {s : State} (hno : NoSlot (Slot.boundTo key) s.slots)
    (hfull : NoSlot Slot.isFree s.slots) (vel : Num7) : noteOn key vel s = s := by
  rw [noteOn, allocate_of_full hno hfull]

/-- Settles O28: the three clauses are the three answers of `allocate`, and the slots that they write out are those of
`startVoice`, in the second clause after `bindSlot`. -/
theorem noteOnStartsASlot : Obligations.NoteOnStartsASlot := by
  intro s key vel hvel
  rw [exec_note_of_ne_zero hvel]
  refine ⟨fun i v hi hv => ?_, fun j v hno hj hv => ?_, fun hno hvalid => ?_⟩
  · exact congrArg Host.Outcome.next (noteOn_of_bound hi hv vel)
  · exact congrArg Host.Outcome.next (noteOn_of_free hno hj hv vel)
  · exact congrArg Host.Outcome.next (noteOn_of_full hno (noSlot_isFree_of_all_valid hvalid) vel)

end Sys2Proof.Machine
end

