-- ==== Sys2Proof/Proofs/ReleaseAll.lean ====
section
/-!
ASOFF (R138, R156): `releaseAll` acts on each slot by itself, so what it leaves at an index is read off the slot there.
-/

namespace Sys2Proof.Machine

theorem exec_asoff (s : State) : exec .asoff s = .next (s.withSlots (releaseAll s.params s.slots)) := rfl

@[simp] theorem releaseAll_length (p : Params) (slots : List Slot) : (releaseAll p slots).length = slots.length :=
  List.length_map _

theorem releaseAll_getElem?_of_valid {slots : List Slot} {j : Nat} {v : Slot} (hj : slots[j]? = some v)
    (hv : v.valid = true) (p : Params) : (releaseAll p slots)[j]? = some (releaseSlot p v) := by
  rw [releaseAll, List.getElem?_map, hj]
  exact congrArg some (if_pos hv)

theorem releaseAll_getElem?_of_free {slots : List Slot} {j : Nat} {v : Slot} (hj : slots[j]? = some v)
    (hv : v.valid = false) (p : Params) : (releaseAll p slots)[j]? = some v := by
  rw [releaseAll, List.getElem?_map, hj]
  exact congrArg some (if_neg (Bool.eq_false_iff.mp hv))

/-- Settles O34: at each index `releaseAll` leaves the release of an active slot, and a free slot as it was. -/
theorem asoffReleasesEveryActiveSlot : Obligations.AsoffReleasesEveryActiveSlot := by
  intro s
  exact ⟨_, exec_asoff s, rfl, releaseAll_length s.params s.slots,
    fun j v hj hv => releaseAll_getElem?_of_valid hj hv s.params,
    fun j v hj hv => releaseAll_getElem?_of_free hj hv s.params⟩

end Sys2Proof.Machine
end

