-- ==== Sys2Proof/Proofs/InvalidStage.lean ====
section
/-!
InvalidStage (R171, R181). A tick brings no slot into a stage without a table row, so the pre-check of the first tick
decides: with a bad slot there the block halts at once, and without one no tick of the RENDER writes `STATUS`.
-/

namespace Sys2Proof.Machine

/-- The stages of R106, written out. -/
theorem badSlot_eq (v : Slot) :
    badSlot v = (v.valid && decide (v.stage = .idle ∨ v.stage = .code5 ∨ v.stage = .code6 ∨ v.stage = .code7)) := by
  unfold badSlot
  cases v.stage <;> simp

/-! ### The word of `STATUS` -/

theorem toNat_append_eq_add {m n : Nat} (hi : BitVec m) (lo : BitVec n) :
    (hi ++ lo).toNat = hi.toNat * 2 ^ n + lo.toNat := by
  rw [BitVec.toNat_append, ← Nat.shiftLeft_add_eq_or_of_lt lo.isLt, Nat.shiftLeft_eq]

/-- The fields of `STATUS` by their weights (R36). -/
theorem statusWord_toNat (st : Status) :
    (statusWord st).toNat =
      (if st.fault then 1 else 0) + (if st.badcmd then 2 else 0) + 4 * st.fcode.toNat + 256 * st.fslot.toNat := by
  have hbit : ∀ b : Bool, (BitVec.ofBool b).toNat = if b then 1 else 0 := by decide
  have hzero : (0#4).toNat = 0 := rfl
  simp only [statusWord, toNat_append_eq_add, hbit, hzero]
  split <;> split <;> omega

theorem toNat_ofNat_of_lt {w n : Nat} (h : n < 2 ^ w) : (BitVec.ofNat w n).toNat = n := by
  rw [BitVec.toNat_ofNat, Nat.mod_eq_of_lt h]

theorem fslot_invalidStage (st : Status) {i : Nat} (hi : i < 256) : (st.invalidStage i).fslot.toNat = i :=
  toNat_ofNat_of_lt hi

theorem statusWord_invalidStage (st : Status) {i : Nat} (hi : i < 256) :
    (statusWord (st.invalidStage i)).toNat = 256 * i + 5 + if st.badcmd then 2 else 0 := by
  have hfault : (if (st.invalidStage i).fault then 1 else 0) = 1 := rfl
  have hbadcmd : (st.invalidStage i).badcmd = st.badcmd := rfl
  have hfcode : (st.invalidStage i).fcode.toNat = 1 := rfl
  rw [statusWord_toNat, fslot_invalidStage st hi, hfault, hbadcmd, hfcode]
  omega

/-! ### Slots that pass the pre-check go on passing it -/

theorem badSlot_of_isSounding {v : Slot} (h : v.stage.isSounding = true) : badSlot v = false := by
  refine Bool.eq_false_iff.mpr fun hbad => ?_
  obtain ⟨_, hns⟩ := (badSlot_iff v).mp hbad
  exact absurd h (Bool.eq_false_iff.mp hns)

theorem badSlot_tickSlot {v : Slot} (h : badSlot v = false) (p : Params) : badSlot (tickSlot p v) = false := by
  obtain ⟨htick, _⟩ | ⟨_, _, _, _, htick⟩ | ⟨st, _, hst, _, htick⟩ := tickSlot_cases p v <;> rw [htick]
  · exact h
  · rfl
  · have hsound : v.stage.isSounding = true := by rw [hst]; rfl
    exact badSlot_of_isSounding (advance_isSounding hsound p st)

theorem noSlot_badSlot_map_tickSlot {slots : List Slot} (h : NoSlot badSlot slots) (p : Params) :
    NoSlot badSlot (slots.map (tickSlot p)) := by
  intro v hv
  obtain ⟨u, hu, rfl⟩ := List.mem_map.mp hv
  exact badSlot_tickSlot (h u hu) p

/-- INV5: the invariant leaves the pre-check nothing to find. -/
theorem State.Inv.noSlot_badSlot {s : State} (h : s.Inv) : NoSlot badSlot s.slots := by
  intro v hv
  cases hvalid : v.valid with
  | false => simp [badSlot, hvalid]
  | true =>
    obtain ⟨_, hactive⟩ := h.sound v hv
    obtain ⟨hsound, _⟩ := hactive hvalid
    exact badSlot_of_isSounding hsound

/-! ### Who writes `STATUS` -/

theorem runTicks_status_of_noSlot {s : State} (h : NoSlot badSlot s.slots) (n : Nat) :
    (runTicks n s).status = s.status := by
  induction n generalizing s with
  | zero => rfl
  | succ n ih =>
    have hgood := (lowestBad_eq_none_iff s.slots).mpr h
    obtain ⟨i, hi, _⟩ | ⟨_, _, hrun⟩ | ⟨_, _, _, _, _, hrun⟩ | ⟨x, rest, _, _, _, hrun⟩ := runTicks_succ_cases n s
    · exact absurd (hgood.symm.trans hi) nofun
    · rw [hrun]; rfl
    · rw [hrun]; rfl
    · rw [hrun]
      exact ih (noSlot_badSlot_map_tickSlot h s.params)

/-- A RENDER leaves `STATUS` alone, or its first pre-check raises InvalidStage. -/
theorem runTicks_status_cases (n : Nat) (s : State) :
    (runTicks n s).status = s.status ∨
      ∃ m k, n = m + 1 ∧ LowestSlot badSlot s.slots k ∧ runTicks n s = raiseInvalidStage k s := by
  cases hbad : lowestBad s.slots with
  | none => exact .inl (runTicks_status_of_noSlot ((lowestBad_eq_none_iff s.slots).mp hbad) n)
  | some k =>
    cases n with
    | zero => exact .inl rfl
    | succ m => exact .inr ⟨m, k, rfl, (lowestBad_eq_some_iff s.slots k).mp hbad, runTicks_succ_of_bad hbad⟩

@[simp] theorem noteOn_status (key vel : Num7) (s : State) : (noteOn key vel s).status = s.status := by
  unfold noteOn
  split <;> rfl

@[simp] theorem noteOff_status (key : Num7) (s : State) : (noteOff key s).status = s.status := by
  unfold noteOff
  split <;> rfl

theorem exec_status_of_not_render {i : Instr} {s t : State} (hi : ∀ n, i ≠ .render n) (h : exec i s = .next t) :
    t.status = s.status := by
  cases i with
  | note key vel =>
    by_cases hvel : vel = 0
    · subst hvel
      rw [exec_note_zero] at h
      obtain rfl := Host.Outcome.next.inj h
      exact noteOff_status key s
    · rw [exec_note_of_ne_zero hvel] at h
      obtain rfl := Host.Outcome.next.inj h
      exact noteOn_status key vel s
  | ctrl id raw => obtain rfl := Host.Outcome.next.inj h; rfl
  | asoff => obtain rfl := Host.Outcome.next.inj h; rfl
  | render n => exact absurd rfl (hi n)

/-- A command that writes `STATUS` is a RENDER whose first pre-check finds a bad slot. -/
theorem exec_writes_status {i : Instr} {s t : State} (h : exec i s = .next t) (hne : t.status ≠ s.status) :
    ∃ n k, i = .render (n + 1) ∧ LowestSlot badSlot s.slots k ∧ t = raiseInvalidStage k s := by
  cases i with
  | render n =>
    obtain rfl := Host.Outcome.next.inj h
    obtain ⟨m, k, rfl, hk, hrun⟩ := (runTicks_status_cases n s).resolve_left hne
    exact ⟨m, k, rfl, hk, hrun⟩
  | _ => exact absurd (exec_status_of_not_render (by simp) h) hne

/-- Settles O19: the pre-check of the first tick halts the block; nothing else writes `STATUS`, and under the invariant
that pre-check finds no slot. -/
theorem invalidStageIsPrecise : Obligations.InvalidStageIsPrecise := by
  refine ⟨fun n i s hi hlow => ?_, fun i s t => exec_writes_status, fun n s t hinv h => ?_⟩
  · rw [← funext badSlot_eq, ← lowestBad_eq_some_iff] at hlow
    exact ⟨raiseInvalidStage i s, congrArg Host.Outcome.next (runTicks_succ_of_bad hlow), rfl, rfl, rfl,
      fslot_invalidStage s.status hi, rfl, statusWord_invalidStage s.status hi⟩
  · obtain rfl := Host.Outcome.next.inj h
    exact runTicks_status_of_noSlot hinv.noSlot_badSlot n

end Sys2Proof.Machine
end

