-- ==== Sys2Proof/Proofs/Ctrl.lean ====
section
/-!
CTRL (R154, R155). In a legal configuration the four identifiers differ and every entry of `DUR` fits its register (R4),
so each identifier has one equation of `writeParam`, and what is written is read back as R53 and R54 give it.
-/

namespace Sys2Proof.Machine

theorem exec_ctrl (id : Num7) (raw : Int) (s : State) :
    exec (.ctrl id raw) s = .next (s.withParams (writeParam s.cfg id (ctrlValue raw) s.params)) := rfl

theorem ctrlValue_cast (raw : Int) : (ctrlValue raw : Int) = max 0 (min 127 raw) :=
  Int.toNat_of_nonneg (le_max_left 0 _)

/-! ### What R4 gives -/

theorem configOk_controls_distinct {c : Config} (h : configOk c = true) :
    c.ccDecay ≠ c.ccAttack ∧ (c.ccSustain ≠ c.ccAttack ∧ c.ccSustain ≠ c.ccDecay) ∧
      c.ccRelease ≠ c.ccAttack ∧ c.ccRelease ≠ c.ccDecay ∧ c.ccRelease ≠ c.ccSustain := by
  simp only [configOk, Bool.and_eq_true, decide_eq_true_eq] at h
  obtain ⟨⟨⟨⟨⟨_, hdistinct⟩, _⟩, _⟩, _⟩, _⟩ := h
  simp only [List.nodup_cons, List.mem_cons, List.not_mem_nil, or_false, not_or] at hdistinct
  obtain ⟨⟨had, has, har⟩, ⟨hds, hdr⟩, hsr, _⟩ := hdistinct
  exact ⟨Ne.symm had, ⟨Ne.symm has, Ne.symm hds⟩, Ne.symm har, Ne.symm hdr, Ne.symm hsr⟩

theorem configOk_durNat_lt {c : Config} (h : configOk c = true) {v : Nat} (hv : v ≤ 127) : durNat c v < 2 ^ 24 := by
  simp only [configOk, Bool.and_eq_true, List.all_eq_true, decide_eq_true_eq] at h
  obtain ⟨⟨⟨⟨_, hdur⟩, _⟩, _⟩, _⟩ := h
  exact hdur v (List.mem_range.mpr (Nat.lt_succ_of_le hv))

theorem dur_toNat {c : Config} (h : configOk c = true) {v : Nat} (hv : v ≤ 127) :
    (dur c v).toNat = c.sr * v * c.dbNum ^ v / (127 * c.dbDen ^ v) :=
  toNat_ofNat_of_lt (configOk_durNat_lt h hv)

theorem sus_toNat {v : Nat} (hv : v ≤ 127) : (sus v).toNat = v * 32768 / 127 :=
  toNat_ofNat_of_lt (by rw [Config.one]; omega)

/-! ### The table of R155, one equation per identifier -/

section
variable {c : Config} {id : Num7}

theorem writeParam_attack (hid : id.toNat = c.ccAttack) (v : Nat) (p : Params) :
    writeParam c id v p = { p with attack := dur c v } := if_pos hid

theorem writeParam_decay (h : configOk c = true) (hid : id.toNat = c.ccDecay) (v : Nat) (p : Params) :
    writeParam c id v p = { p with decay := dur c v } := by
  obtain ⟨hattack, _⟩ := configOk_controls_distinct h
  rw [writeParam, hid, if_neg hattack, if_pos rfl]

theorem writeParam_sustain (h : configOk c = true) (hid : id.toNat = c.ccSustain) (v : Nat) (p : Params) :
    writeParam c id v p = { p with sustain := sus v } := by
  obtain ⟨_, ⟨hattack, hdecay⟩, _⟩ := configOk_controls_distinct h
  rw [writeParam, hid, if_neg hattack, if_neg hdecay, if_pos rfl]

theorem writeParam_release (h : configOk c = true) (hid : id.toNat = c.ccRelease) (v : Nat) (p : Params) :
    writeParam c id v p = { p with release := dur c v } := by
  obtain ⟨_, _, hattack, hdecay, hsustain⟩ := configOk_controls_distinct h
  rw [writeParam, hid, if_neg hattack, if_neg hdecay, if_neg hsustain, if_pos rfl]

theorem writeParam_other (hid : id.toNat ∉ [c.ccAttack, c.ccDecay, c.ccSustain, c.ccRelease]) (v : Nat) (p : Params) :
    writeParam c id v p = p := by
  simp only [List.mem_cons, List.not_mem_nil, or_false, not_or] at hid
  obtain ⟨hattack, hdecay, hsustain, hrelease⟩ := hid
  rw [writeParam, if_neg hattack, if_neg hdecay, if_neg hsustain, if_neg hrelease]

end

/-- Settles O33: each clause is one equation of `writeParam`, read at the clamped value. -/
theorem ctrlWritesOneParameter : Obligations.CtrlWritesOneParameter := by
  intro s id raw hc
  have hv := ctrlValue_le raw
  refine ⟨_, ctrlValue raw, exec_ctrl id raw s, rfl, ctrlValue_cast raw, fun hid => ?_, fun hid => ?_, fun hid => ?_,
    fun hid => ?_, fun hid => ?_⟩
  · rw [writeParam_attack hid]
    exact ⟨dur_toNat hc hv, rfl⟩
  · rw [writeParam_decay hc hid]
    exact ⟨dur_toNat hc hv, rfl⟩
  · rw [writeParam_sustain hc hid]
    exact ⟨sus_toNat hv, rfl⟩
  · rw [writeParam_release hc hid]
    exact ⟨dur_toNat hc hv, rfl⟩
  · rw [writeParam_other hid, State.withParams_self]

end Sys2Proof.Machine
end

