-- ==== Sys2Proof/Proofs/Badcmd.lean ====
section
/-!
`BADCMD` (R183). No command writes it: the one write of `STATUS` in a command is InvalidStage, which leaves that bit
alone. So a step keeps it, sets it on an illegal word, or ends in a reset block.
-/

namespace Sys2Proof.Machine

theorem runTicks_badcmd (n : Nat) (s : State) : (runTicks n s).status.badcmd = s.status.badcmd := by
  obtain h | ⟨_, _, _, _, h⟩ := runTicks_status_cases n s <;> rw [h]
  rfl

theorem goOn_badcmd (r : RenderWait) (s : State) : (goOn r s).status.badcmd = s.status.badcmd := by
  unfold goOn
  split <;> exact runTicks_badcmd r.left _

theorem exec_badcmd {i : Instr} {s t : State} (h : exec i s = .next t) : t.status.badcmd = s.status.badcmd := by
  by_cases hst : t.status = s.status
  · rw [hst]
  · obtain ⟨_, _, _, _, rfl⟩ := exec_writes_status h hst
    rfl

/-- What a step can do to `BADCMD`. -/
theorem step_badcmd_cases {s t : State} (h : step s = .next t) :
    t.status.badcmd = s.status.badcmd ∨ t.status.badcmd = true ∨ ∃ u, t = resetBlock u := by
  obtain ⟨_, ⟨_, _, _, ht⟩ | ⟨_, r, _, hwait⟩ | ⟨_, _, hready⟩⟩ := step_next_cases h
  case inl => exact .inr (.inr ⟨_, ht⟩)
  case inr.inl =>
    obtain ⟨_, rfl⟩ | ⟨_, _, _, ht⟩ | ⟨_, _, rfl⟩ := hwait
    · exact .inl (goOn_badcmd r s)
    · exact .inr (.inr ⟨_, ht⟩)
    · exact .inl rfl
  case inr.inr =>
    obtain ⟨_, rfl⟩ | ⟨_, rest, _, _, _, hexec⟩ | ⟨_, _, _, _, rfl⟩ | ⟨_, _, ht⟩ | ⟨w, k, b, rest, _, rfl⟩ := hready
    · exact .inl rfl
    · exact .inl (exec_badcmd (s := s.withPort rest) hexec)
    · exact .inr (.inl rfl)
    · exact .inr (.inr ⟨_, ht⟩)
    · exact .inr (.inr (abandon_is_reset w k b (s.withPort rest)))

/-- Settles O7: the step that drops an illegal word sets the flag alone, and a step that does not keep the flag leaves it
set or ends in a reset block. -/
theorem badcmdIsStickyUntilReset : Obligations.BadcmdIsStickyUntilReset := by
  obtain ⟨_, hdrop⟩ := illegalWordsAreDropped
  refine ⟨fun s w rest hready hport hd => ⟨_, hdrop s w rest hready hport hd, rfl, rfl, rfl, rfl, rfl⟩, ?_⟩
  intro s t h hset
  obtain hkept | hcases := step_badcmd_cases h
  · exact .inl (hkept.trans hset)
  · exact hcases

end Sys2Proof.Machine
end

