-- ==== Sys2Proof/Proofs/Reset.lean ====
section
/-!
Reset (R200). A slot file of free slots meets the invariants of R39, the reset values of a legal configuration fit their
registers (R4) and so read back as they are, and a halted block has no next state but a reset block (R187).
-/

namespace Sys2Proof.Machine

/-! ### A file of free slots -/

theorem sound_free (c : Config) : Slot.free.Sound c := ⟨fun _ => rfl, fun h => Bool.noConfusion h⟩

theorem gainsInRange_free : Slot.free.GainsInRange := by decide

theorem distinctNotes_of_all_free {slots : List Slot} (h : ∀ v ∈ slots, v = Slot.free) : DistinctNotes slots := by
  have hnone : slots.filter (·.valid) = [] := List.filter_eq_nil_iff.mpr fun v hv => by rw [h v hv]; decide
  rw [DistinctNotes, hnone]
  exact List.nodup_nil

theorem eq_free_of_mem_resetBlock {u : State} {v : Slot} (hv : v ∈ (resetBlock u).slots) : v = Slot.free :=
  List.eq_of_mem_replicate hv

/-! ### The registers -/

theorem configOk_resetValues {c : Config} (h : configOk c = true) :
    (c.rstAttack < 2 ^ 24 ∧ c.rstDecay < 2 ^ 24 ∧ c.rstRelease < 2 ^ 24) ∧ c.rstSustain ≤ 32768 := by
  simp only [configOk, Bool.and_eq_true, decide_eq_true_eq] at h
  obtain ⟨⟨⟨_, hdurations⟩, hsustain⟩, _⟩ := h
  exact ⟨hdurations, hsustain⟩

theorem ofReset_toNat {c : Config} (h : configOk c = true) :
    (Params.ofReset c).attack.toNat = c.rstAttack ∧ (Params.ofReset c).decay.toNat = c.rstDecay ∧
      (Params.ofReset c).sustain.toNat = c.rstSustain ∧ (Params.ofReset c).release.toNat = c.rstRelease := by
  obtain ⟨⟨hattack, hdecay, hrelease⟩, hsustain⟩ := configOk_resetValues h
  have hsustain' : c.rstSustain < 2 ^ 16 := by omega
  exact ⟨toNat_ofNat_of_lt hattack, toNat_ofNat_of_lt hdecay, toNat_ofNat_of_lt hsustain', toNat_ofNat_of_lt hrelease⟩

theorem statusWord_clear : statusWord Status.clear = 0 := by decide

/-! ### Steps that reset -/

theorem step_of_ready_reset {s : State} {rest : List HostEvent} (h : s.Ready) (hp : s.port = .reset :: rest) :
    step s = .next (resetBlock (s.withPort rest)) := by
  rw [step_of_ready h, readyStep, hp]

theorem resetBlock_of_step_of_halted {s t : State} (h : step s = .next t) (hf : s.Halted) : ∃ u, t = resetBlock u := by
  obtain ⟨_, ⟨_, _, _, ht⟩ | ⟨hlive, _⟩ | ⟨hlive, _⟩⟩ := step_next_cases h
  · exact ⟨_, ht⟩
  all_goals exact Bool.noConfusion (hf.symm.trans hlive)

theorem resetBlock_of_step_clears_badcmd {s t : State} (h : step s = .next t) (hs : s.status.badcmd = true)
    (ht : t.status.badcmd = false) : ∃ u, t = resetBlock u := by
  obtain ⟨_, hsticky⟩ := badcmdIsStickyUntilReset
  obtain hset | hreset := hsticky s t h hs
  · exact Bool.noConfusion (ht.symm.trans hset)
  · exact hreset

/-- Settles O13: the state after the step is a reset block, whose slots are all free and whose registers hold values that
fit them; a step that clears a flag starts from a halted block or fails to keep `BADCMD`. -/
theorem resetGivesEveryResetValue : Obligations.ResetGivesEveryResetValue := by
  refine ⟨fun s rest hready hport => ?_, by decide, fun s t h hcleared => ?_⟩
  · have ⟨hc, _, _⟩ := hready
    obtain ⟨hattack, hdecay, hsustain, hrelease⟩ := ofReset_toNat hc
    obtain ⟨_, hsustain_le⟩ := configOk_resetValues hc
    have hfree : ∀ v ∈ (resetBlock (s.withPort rest)).slots, v = Slot.free := fun _ => eq_free_of_mem_resetBlock
    refine ⟨_, step_of_ready_reset hready hport, List.length_replicate, fun v hv => ?_, hattack, hdecay, hsustain,
      hrelease, statusWord_clear, fun v hv => ?_, distinctNotes_of_all_free hfree, hsustain.trans_le hsustain_le, rfl⟩
    · rw [hfree v hv]
      decide
    · rw [hfree v hv]
      exact ⟨sound_free _, gainsInRange_free⟩
  · obtain ⟨hfault, _⟩ | ⟨hset, hclear⟩ := hcleared
    · exact resetBlock_of_step_of_halted h hfault
    · exact resetBlock_of_step_clears_badcmd h hset hclear

end Sys2Proof.Machine
end

