-- ==== Sys2Proof/Proofs/Encoder.lean ====
section
/-!
The encoder (R88). The word of a well-formed command is in that command's row of R86 and holds each operand in its field,
which is all that `decode` reads; and a word of a row has no other bits than the row's `match` and the operand fields, so
no two words decode to one command.
-/

namespace Sys2Proof

/-! ### The fields of an encoded command -/

theorem keyField_encode_note (key vel : Num7) : keyField (encode (.note key vel)) = key := by
  apply BitVec.eq_of_getLsbD_eq
  intro i hi
  simp only [keyField, encode, BitVec.getLsbD_extractLsb', BitVec.getLsbD_or, BitVec.getLsbD_shiftLeft,
    BitVec.getLsbD_setWidth]
  interval_cases i <;> simp

theorem velField_encode_note (key vel : Num7) : velField (encode (.note key vel)) = vel := by
  apply BitVec.eq_of_getLsbD_eq
  intro i hi
  simp only [velField, encode, BitVec.getLsbD_extractLsb', BitVec.getLsbD_or, BitVec.getLsbD_shiftLeft,
    BitVec.getLsbD_setWidth]
  interval_cases i <;> simp

theorem idField_encode_ctrl (id : Num7) (raw : Int) : idField (encode (.ctrl id raw)) = id := by
  apply BitVec.eq_of_getLsbD_eq
  intro i hi
  simp only [idField, encode, BitVec.getLsbD_extractLsb', BitVec.getLsbD_or, BitVec.getLsbD_shiftLeft,
    BitVec.getLsbD_setWidth]
  interval_cases i <;> simp

theorem low16_encode_ctrl (id : Num7) (raw : Int) :
    (encode (.ctrl id raw)).extractLsb' 0 16 = BitVec.ofInt 16 raw := by
  apply BitVec.eq_of_getLsbD_eq
  intro i hi
  simp only [encode, BitVec.getLsbD_extractLsb', BitVec.getLsbD_or, BitVec.getLsbD_shiftLeft,
    BitVec.getLsbD_setWidth]
  interval_cases i <;> simp

theorem low16_encode_render (n : Nat) : (encode (.render n)).extractLsb' 0 16 = BitVec.ofNat 16 n := by
  apply BitVec.eq_of_getLsbD_eq
  intro i hi
  simp only [encode, BitVec.getLsbD_extractLsb', BitVec.getLsbD_or, BitVec.getLsbD_setWidth]
  interval_cases i <;> simp

/-- R85's range is what 16 bits of two's complement hold. -/
theorem rawField_encode_ctrl (id : Num7) {raw : Int} (h : rawInRange raw = true) :
    rawField (encode (.ctrl id raw)) = raw := by
  obtain ⟨hlo, hhi⟩ := of_decide_eq_true h
  rw [rawField, low16_encode_ctrl, BitVec.toInt_ofInt, Int.bmod_def]
  omega

theorem countField_encode_render {n : Nat} (h : countInRange n = true) : countField (encode (.render n)) = n := by
  have hn : n ≤ 65535 := of_decide_eq_true h
  rw [countField, low16_encode_render, BitVec.toNat_ofNat, Nat.mod_eq_of_lt (Nat.lt_succ_of_le hn)]

/-- Settles O2: the encoded word is in its row, with each operand in its field. -/
theorem decodeOfEncodeIsTheCommand : Obligations.DecodeOfEncodeIsTheCommand := by
  intro i hwf
  cases i with
  | note key vel =>
    exact (decode_eq_note_iff _ key vel).mpr
      ⟨Laws.EncodesInItsRow.note key vel hwf, keyField_encode_note key vel, velField_encode_note key vel⟩
  | ctrl id raw =>
    exact (decode_eq_ctrl_iff _ id raw).mpr
      ⟨Laws.EncodesInItsRow.ctrl id raw hwf, idField_encode_ctrl id raw, rawField_encode_ctrl id hwf⟩
  | asoff => exact (decode_eq_asoff_iff _).mpr (Laws.EncodesInItsRow.asoff hwf)
  | render n =>
    exact (decode_eq_render_iff _ n).mpr ⟨Laws.EncodesInItsRow.render n hwf, countField_encode_render hwf⟩

/-! ### A legal word is its row and its fields -/

/-- Two words that agree on a mask and off it are equal. -/
theorem eq_of_and_eq_of_and_not_eq {w u mask : Word} (hrow : w &&& mask = u &&& mask)
    (hrest : w &&& ~~~mask = u &&& ~~~mask) : w = u := by
  apply BitVec.eq_of_getLsbD_eq
  intro i hi
  have h1 := congrArg (BitVec.getLsbD · i) hrow
  have h2 := congrArg (BitVec.getLsbD · i) hrest
  simp only [BitVec.getLsbD_and, BitVec.getLsbD_not, hi, decide_true, Bool.true_and] at h1 h2
  cases hm : mask.getLsbD i <;> simp_all

/-- The bits off the mask of NOTE are its two fields. -/
theorem and_not_noteMask (w : Word) :
    w &&& ~~~0xFFFF8080#32 = (keyField w).setWidth 32 <<< 8 ||| (velField w).setWidth 32 := by
  apply BitVec.eq_of_getLsbD_eq
  intro i hi
  simp only [keyField, velField, BitVec.getLsbD_and, BitVec.getLsbD_or, BitVec.getLsbD_shiftLeft,
    BitVec.getLsbD_setWidth, BitVec.getLsbD_extractLsb']
  interval_cases i <;> simp

theorem and_not_ctrlMask (w : Word) :
    w &&& ~~~0xFF800000#32 = (idField w).setWidth 32 <<< 16 ||| (w.extractLsb' 0 16).setWidth 32 := by
  apply BitVec.eq_of_getLsbD_eq
  intro i hi
  simp only [idField, BitVec.getLsbD_and, BitVec.getLsbD_or, BitVec.getLsbD_shiftLeft,
    BitVec.getLsbD_setWidth, BitVec.getLsbD_extractLsb']
  interval_cases i <;> simp

theorem and_not_renderMask (w : Word) : w &&& ~~~0xFFFF0000#32 = (w.extractLsb' 0 16).setWidth 32 := by
  apply BitVec.eq_of_getLsbD_eq
  intro i hi
  simp only [BitVec.getLsbD_and, BitVec.getLsbD_setWidth, BitVec.getLsbD_extractLsb']
  interval_cases i <;> simp

/-- `decode` is injective on the legal words. -/
theorem eq_of_decode_eq_command {w u : Word} {i : Instr} (hw : decode w = .command i) (hu : decode u = .command i) :
    w = u := by
  cases i with
  | note key vel =>
    obtain ⟨hwrow, hwkey, hwvel⟩ := (decode_eq_note_iff w key vel).mp hw
    obtain ⟨hurow, hukey, huvel⟩ := (decode_eq_note_iff u key vel).mp hu
    refine eq_of_and_eq_of_and_not_eq (hwrow.trans hurow.symm) ?_
    rw [and_not_noteMask, and_not_noteMask, hwkey, hukey, hwvel, huvel]
  | ctrl id raw =>
    obtain ⟨hwrow, hwid, hwraw⟩ := (decode_eq_ctrl_iff w id raw).mp hw
    obtain ⟨hurow, huid, huraw⟩ := (decode_eq_ctrl_iff u id raw).mp hu
    have hlow : w.extractLsb' 0 16 = u.extractLsb' 0 16 := BitVec.eq_of_toInt_eq (hwraw.trans huraw.symm)
    refine eq_of_and_eq_of_and_not_eq (hwrow.trans hurow.symm) ?_
    rw [and_not_ctrlMask, and_not_ctrlMask, hwid, huid, hlow]
  | asoff =>
    have hwrow := (decode_eq_asoff_iff w).mp hw
    have hurow := (decode_eq_asoff_iff u).mp hu
    exact eq_of_and_eq_of_and_not_eq (hwrow.trans hurow.symm) (by simp)
  | render n =>
    obtain ⟨hwrow, hwn⟩ := (decode_eq_render_iff w n).mp hw
    obtain ⟨hurow, hun⟩ := (decode_eq_render_iff u n).mp hu
    have hlow : w.extractLsb' 0 16 = u.extractLsb' 0 16 := BitVec.eq_of_toNat_eq (hwn.trans hun.symm)
    refine eq_of_and_eq_of_and_not_eq (hwrow.trans hurow.symm) ?_
    rw [and_not_renderMask, and_not_renderMask, hlow]

/-- What a word decodes to has its operands from fields of the word, so they are in the range of R85. -/
theorem wellFormed_of_decode {w : Word} {i : Instr} (h : decode w = .command i) : WellFormed i = true := by
  cases i with
  | note key vel => rfl
  | asoff => rfl
  | ctrl id raw =>
    obtain ⟨_, _, rfl⟩ := (decode_eq_ctrl_iff w id raw).mp h
    have hlo := (w.extractLsb' 0 16).le_toInt
    have hhi := (w.extractLsb' 0 16).toInt_lt
    exact decide_eq_true ⟨hlo, Int.le_of_lt_add_one hhi⟩
  | render n =>
    obtain ⟨_, rfl⟩ := (decode_eq_render_iff w n).mp h
    exact decide_eq_true (Nat.le_of_lt_succ (w.extractLsb' 0 16).isLt)

/-- Settles O3: the command's own word decodes to it too, and `decode` is injective. -/
theorem encodeOfDecodeIsTheWord : Obligations.EncodeOfDecodeIsTheWord := by
  intro w i h
  have hwf := wellFormed_of_decode h
  exact ⟨eq_of_decode_eq_command (decodeOfEncodeIsTheCommand i hwf) h, hwf⟩

/-- Settles O1: each word is a closed number, and `decode` computes. -/
theorem workedWordsDecode : Obligations.WorkedWordsDecode := by
  unfold Obligations.WorkedWordsDecode
  decide

end Sys2Proof
end

