-- ==== Sys2Proof/Proofs/Commands.lean ====
section
/-!
The frames of NOTE, CTRL and ASOFF (R150). A NOTE answers the state as it was, or writes one slot: `exec_note_cases` says
which one and what it writes there. Slot files are compared index by index.
-/

namespace Sys2Proof.Machine

/-! ### Slot files compared index by index -/

/-- The files are equally long and `R` holds between the two slots at each index. -/
def Slotwise (R : Slot → Slot → Prop) (old new : List Slot) : Prop :=
  new.length = old.length ∧ ∀ (j : Nat) (v : Slot), old[j]? = some v → ∃ v', new[j]? = some v' ∧ R v v'

namespace Slotwise

variable {R : Slot → Slot → Prop}

theorem refl (hrefl : ∀ v, R v v) (slots : List Slot) : Slotwise R slots slots :=
  ⟨rfl, fun _ v hv => ⟨v, hv, hrefl v⟩⟩

theorem trans {a b c : List Slot} (hab : Slotwise R a b) (hbc : Slotwise R b c)
    (htrans : ∀ ⦃u v w⦄, R u v → R v w → R u w) : Slotwise R a c := by
  obtain ⟨hab_len, hab⟩ := hab
  obtain ⟨hbc_len, hbc⟩ := hbc
  refine ⟨hbc_len.trans hab_len, fun j v hv => ?_⟩
  obtain ⟨v', hv', hR⟩ := hab j v hv
  obtain ⟨v'', hv'', hR'⟩ := hbc j v' hv'
  exact ⟨v'', hv'', htrans hR hR'⟩

theorem map {f : Slot → Slot} (hf : ∀ v, R v (f v)) (slots : List Slot) : Slotwise R slots (slots.map f) :=
  ⟨List.length_map f, fun j v hv => ⟨f v, by rw [List.getElem?_map, hv, Option.map_some], hf v⟩⟩

theorem set (hrefl : ∀ v, R v v) {slots : List Slot} {i : Nat} {v w : Slot} (hi : slots[i]? = some v) (h : R v w) :
    Slotwise R slots (slots.set i w) := by
  refine ⟨List.length_set, fun j u hu => ?_⟩
  by_cases hij : i = j
  · subst hij
    obtain rfl : v = u := Option.some.inj (hi.symm.trans hu)
    have hlt : i < slots.length := (List.getElem?_eq_some_iff.mp hi).1
    exact ⟨w, List.getElem?_set_self hlt, h⟩
  · exact ⟨u, by rw [List.getElem?_set_ne hij, hu], hrefl u⟩

end Slotwise

/-! ### NOTE -/

theorem LowestSlot.exists_slot {q : Slot → Bool} {slots : List Slot} {i : Nat} (h : LowestSlot q slots i) :
    ∃ v, slots[i]? = some v ∧ q v = true := Option.map_eq_some_iff.mp h.1

theorem boundTo_iff (key : Num7) (v : Slot) : v.boundTo key = true ↔ v.valid = true ∧ v.note = key := by
  simp [Slot.boundTo]

theorem noteTarget_of_bound {key : Num7} {slots : List Slot} {i : Nat} (hi : LowestSlot (Slot.boundTo key) slots i)
    (vel : Num7) : noteTarget key vel slots = some i := by
  rw [noteTarget, (find_eq_some_iff key slots i).mpr hi]

theorem noteTarget_of_free {key vel : Num7} (hvel : vel ≠ 0) {slots : List Slot} {j : Nat}
    (hno : NoSlot (Slot.boundTo key) slots) (hj : LowestSlot Slot.isFree slots j) :
    noteTarget key vel slots = some j := by
  rw [noteTarget, (find_eq_none_iff key slots).mpr hno]
  exact (if_neg hvel).trans ((firstFree_eq_some_iff slots j).mpr hj)

/-- What a NOTE writes in place of the slot `v` that it targets: the release of the key's slot, its restart, or the start
of a free slot now bound to the key. -/
inductive NoteWrites (key vel : Num7) (s : State) (v : Slot) : Slot → Prop where
  | released (hvel : vel = 0) (hvalid : v.valid = true) (hkey : v.note = key) :
      NoteWrites key vel s v (releaseSlot s.params v)
  | restarted (hvel : vel ≠ 0) (hvalid : v.valid = true) (hkey : v.note = key) :
      NoteWrites key vel s v (startVoice s.cfg s.params key vel v)
  | started (hvel : vel ≠ 0) (hfree : v.valid = false) (hnew : NoSlot (Slot.boundTo key) s.slots) :
      NoteWrites key vel s v (startVoice s.cfg s.params key vel (bindSlot key v))

/-- What a NOTE can do. -/
theorem exec_note_cases (key vel : Num7) (s : State) :
    exec (.note key vel) s = .next s ∨
    ∃ i v w, noteTarget key vel s.slots = some i ∧ s.slots[i]? = some v ∧ NoteWrites key vel s v w ∧
      exec (.note key vel) s = .next (s.withSlots (s.slots.set i w)) := by
  by_cases hvel : vel = 0
  · subst hvel
    rw [exec_note_zero]
    cases hf : find key s.slots with
    | none => exact .inl (by rw [noteOff_of_noSlot ((find_eq_none_iff key s.slots).mp hf)])
    | some i =>
      have hi := (find_eq_some_iff key s.slots i).mp hf
      obtain ⟨v, hv, hq⟩ := hi.exists_slot
      obtain ⟨hvalid, hkey⟩ := (boundTo_iff key v).mp hq
      exact .inr ⟨i, v, _, noteTarget_of_bound hi 0, hv, .released rfl hvalid hkey, by rw [noteOff_of_lowest hi hv]⟩
  · rw [exec_note_of_ne_zero hvel]
    obtain ⟨i, hi, _⟩ | ⟨hno, j, hj, _⟩ | ⟨hno, hfull, _⟩ := allocate_cases key s.slots
    · obtain ⟨v, hv, hq⟩ := hi.exists_slot
      obtain ⟨hvalid, hkey⟩ := (boundTo_iff key v).mp hq
      exact .inr ⟨i, v, _, noteTarget_of_bound hi vel, hv, .restarted hvel hvalid hkey, by rw [noteOn_of_bound hi hv]⟩
    · obtain ⟨v, hv, hq⟩ := hj.exists_slot
      have hfree : v.valid = false := (Bool.not_eq_true' v.valid).mp hq
      exact .inr ⟨j, v, _, noteTarget_of_free hvel hno hj, hv, .started hvel hfree hno,
        by rw [noteOn_of_free hno hj hv]⟩
    · exact .inl (by rw [noteOn_of_full hno hfull])

/-- Settles O30: the one slot that a NOTE writes is its target. -/
theorem noteLeavesTheRestAlone : Obligations.NoteLeavesTheRestAlone := by
  intro key vel s
  obtain h | ⟨i, v, w, htarget, _, _, h⟩ := exec_note_cases key vel s
  · exact ⟨s, h, rfl, rfl, fun _ _ => rfl⟩
  · refine ⟨_, h, rfl, List.length_set, fun j hj => List.getElem?_set_ne ?_⟩
    rintro rfl
    exact hj htarget

/-! ### No voice is stolen -/

/-- An active slot stays active and bound to its key. -/
def KeepsVoice (v v' : Slot) : Prop := v.valid = true → v'.valid = true ∧ v'.note = v.note

theorem KeepsVoice.refl (v : Slot) : KeepsVoice v v := fun h => ⟨h, rfl⟩

theorem NoteWrites.keepsVoice {key vel : Num7} {s : State} {v w : Slot} (h : NoteWrites key vel s v w) :
    KeepsVoice v w := by
  intro hv
  cases h with
  | released | restarted => exact ⟨hv, rfl⟩
  | started _ hfree => exact absurd hv (Bool.eq_false_iff.mp hfree)

theorem releaseIfActive_keepsVoice (p : Params) (v : Slot) : KeepsVoice v (releaseIfActive p v) := by
  intro hv
  rw [releaseIfActive, if_pos hv]
  exact ⟨hv, rfl⟩

theorem exec_keepsVoices {i : Instr} {s t : State} (hi : ∀ n, i ≠ .render n) (h : exec i s = .next t) :
    Slotwise KeepsVoice s.slots t.slots := by
  cases i with
  | note key vel =>
    obtain hsame | ⟨i, v, w, _, hv, hw, hset⟩ := exec_note_cases key vel s
    · obtain rfl := Host.Outcome.next.inj (hsame.symm.trans h)
      exact .refl KeepsVoice.refl _
    · obtain rfl := Host.Outcome.next.inj (hset.symm.trans h)
      exact .set KeepsVoice.refl hv hw.keepsVoice
  | ctrl id raw =>
    obtain rfl := Host.Outcome.next.inj h
    exact .refl KeepsVoice.refl _
  | asoff =>
    obtain rfl := Host.Outcome.next.inj h
    exact .map (releaseIfActive_keepsVoice s.params) s.slots
  | render n => exact absurd rfl (hi n)

/-- Settles O31: a NOTE binds only a slot that was free, and a release or a restart keeps the binding. -/
theorem noVoiceIsStolen : Obligations.NoVoiceIsStolen := by
  intro i s t hi h j v hv hvalid
  obtain ⟨_, hkeeps⟩ := exec_keepsVoices hi h
  obtain ⟨v', hv', hvoice⟩ := hkeeps j v hv
  exact ⟨v', hv', hvoice hvalid⟩

/-- Settles O35: NOTE and ASOFF answer the state with another slot file, CTRL with other parameters. -/
theorem onlyRenderMovesFrames : Obligations.OnlyRenderMovesFrames := by
  intro i s hi
  cases i with
  | note key vel =>
    obtain ⟨t, h, ht, _⟩ := noteLeavesTheRestAlone key vel s
    refine ⟨t, h, ?_, by simp, fun _ => ?_⟩ <;> rw [ht] <;> rfl
  | ctrl id raw => exact ⟨_, exec_ctrl id raw s, rfl, fun _ => rfl, fun hne => absurd rfl (hne id raw)⟩
  | asoff => exact ⟨_, exec_asoff s, rfl, by simp, fun _ => rfl⟩
  | render n => exact absurd rfl (hi n)

end Sys2Proof.Machine
end

