-- ==== Sys2Proof/Proofs/Render.lean ====
section
/-!
RENDER (R157, R170). One complete tick is `completeTick`; a run of ticks is that many of them, or ends early in one of the
three ways of `runTicks_succ_cases`. The statements about RENDER are inductions on the number of ticks.
-/

namespace Sys2Proof.Machine

/-! ### One complete tick -/

/-- The state after a tick on input frame `x`, with `rest` still to come, whose output frame is accepted. -/
def completeTick (x : Frame) (rest : List Frame) (s : State) : State :=
  frameOut (tickFrame s x) (scanVoices (s.withFramesIn rest))

section
variable (x : Frame) (rest : List Frame) (s : State)

@[simp] theorem completeTick_cfg : (completeTick x rest s).cfg = s.cfg := rfl
@[simp] theorem completeTick_slots : (completeTick x rest s).slots = s.slots.map (tickSlot s.params) := rfl
@[simp] theorem completeTick_params : (completeTick x rest s).params = s.params := rfl
@[simp] theorem completeTick_status : (completeTick x rest s).status = s.status := rfl
@[simp] theorem completeTick_wait : (completeTick x rest s).wait = s.wait := rfl
@[simp] theorem completeTick_port : (completeTick x rest s).port = s.port := rfl
@[simp] theorem completeTick_framesIn : (completeTick x rest s).framesIn = rest := rfl
@[simp] theorem completeTick_outRoom : (completeTick x rest s).outRoom = s.outRoom.map (· - 1) := rfl
@[simp] theorem completeTick_framesOut :
    (completeTick x rest s).framesOut = s.framesOut ++ [tickFrame s x] := rfl

end

theorem hasRoom_iff (s : State) : hasRoom s = true ↔ s.outRoom ≠ some 0 := bne_iff_ne

theorem runTicks_succ_of_complete {s : State} {x : Frame} {rest : List Frame} (h : NoSlot badSlot s.slots)
    (hf : s.framesIn = x :: rest) (hr : s.outRoom ≠ some 0) (n : Nat) :
    runTicks (n + 1) s = runTicks n (completeTick x rest s) :=
  runTicks_succ_of_room ((lowestBad_eq_none_iff s.slots).mpr h) hf ((hasRoom_iff s).mpr hr)

/-- `runTicks_succ_cases`, with the complete tick by its name. -/
theorem runTicks_tick_cases (n : Nat) (s : State) :
    (∃ i, LowestSlot badSlot s.slots i ∧ runTicks (n + 1) s = raiseInvalidStage i s) ∨
    (NoSlot badSlot s.slots ∧ s.framesIn = [] ∧
      runTicks (n + 1) s = s.withWait (some { left := n + 1, held := none })) ∨
    (∃ x rest, NoSlot badSlot s.slots ∧ s.framesIn = x :: rest ∧ s.outRoom = some 0 ∧
      runTicks (n + 1) s =
        (scanVoices (s.withFramesIn rest)).withWait (some { left := n, held := some (tickFrame s x) })) ∨
    (∃ x rest, NoSlot badSlot s.slots ∧ s.framesIn = x :: rest ∧ s.outRoom ≠ some 0 ∧
      runTicks (n + 1) s = runTicks n (completeTick x rest s)) := by
  have hroom : hasRoom s = false ↔ s.outRoom = some 0 := bne_eq_false_iff_eq
  simpa only [lowestBad_eq_some_iff, lowestBad_eq_none_iff, hasRoom_iff, hroom, completeTick] using runTicks_succ_cases n s

theorem exec_render (n : Nat) (s : State) : exec (.render n) s = .next (runTicks n s) := rfl

theorem mixValue_eq_int_tdiv (c : Config) (acc : Int) :
    mixValue c acc = Int.tdiv (acc * c.mgNum) (c.mgDen * c.cap * 128) := tdiv_eq_int_tdiv _ _

/-- Settles O21: a complete tick, its mix written out. -/
theorem renderRunsTickByTick : Obligations.RenderRunsTickByTick := by
  refine ⟨fun s => rfl, fun n s x rest hgood hf hr => ?_⟩
  rw [exec_render, runTicks_succ_of_complete hgood hf hr, exec_render, completeTick, tickFrame, mixValue_eq_int_tdiv]
  rfl

/-! ### What no tick touches -/

theorem runTicks_frame (n : Nat) (s : State) :
    (runTicks n s).cfg = s.cfg ∧ (runTicks n s).params = s.params ∧ (runTicks n s).port = s.port := by
  induction n generalizing s with
  | zero => exact ⟨rfl, rfl, rfl⟩
  | succ n ih =>
    obtain ⟨_, _, h⟩ | ⟨_, _, h⟩ | ⟨_, _, _, _, _, h⟩ | ⟨_, _, _, _, _, h⟩ := runTicks_tick_cases n s <;> rw [h]
    · exact ⟨rfl, rfl, rfl⟩
    · exact ⟨rfl, rfl, rfl⟩
    · exact ⟨rfl, rfl, rfl⟩
    · exact ih _

@[simp] theorem runTicks_cfg (n : Nat) (s : State) : (runTicks n s).cfg = s.cfg := (runTicks_frame n s).1
@[simp] theorem runTicks_params (n : Nat) (s : State) : (runTicks n s).params = s.params := (runTicks_frame n s).2.1
@[simp] theorem runTicks_port (n : Nat) (s : State) : (runTicks n s).port = s.port := (runTicks_frame n s).2.2

/-- A tick frees the slot or keeps its binding, velocity and increment, and passes a free slot over. -/
def TickKeeps (v v' : Slot) : Prop :=
  (v' = Slot.free ∨ (v'.valid = v.valid ∧ v'.note = v.note ∧ v'.vel = v.vel ∧ v'.pinc = v.pinc)) ∧
    (v.valid = false → v' = v)

theorem TickKeeps.refl (v : Slot) : TickKeeps v v := ⟨.inr ⟨rfl, rfl, rfl, rfl⟩, fun _ => rfl⟩

theorem TickKeeps.trans {u v w : Slot} (huv : TickKeeps u v) (hvw : TickKeeps v w) : TickKeeps u w := by
  obtain ⟨hkept, hpassed⟩ := huv
  obtain ⟨hkept', hpassed'⟩ := hvw
  refine ⟨?_, fun h => ?_⟩
  · obtain rfl | ⟨hvalid, hnote, hvel, hpinc⟩ := hkept
    · exact .inl (hpassed' rfl)
    · obtain hfree | ⟨hvalid', hnote', hvel', hpinc'⟩ := hkept'
      · exact .inl hfree
      · exact .inr ⟨hvalid'.trans hvalid, hnote'.trans hnote, hvel'.trans hvel, hpinc'.trans hpinc⟩
  · obtain rfl := hpassed h
    exact hpassed' h

theorem tickSlot_keeps (p : Params) (v : Slot) : TickKeeps v (tickSlot p v) := by
  obtain ⟨h, _⟩ | ⟨_, hv, _, _, h⟩ | ⟨st, hv, _, _, h⟩ := tickSlot_cases p v <;> rw [h]
  · exact .refl v
  · exact ⟨.inl rfl, fun hfree => absurd hv (Bool.eq_false_iff.mp hfree)⟩
  · refine ⟨.inr ?_, fun hfree => absurd hv (Bool.eq_false_iff.mp hfree)⟩
    simp

theorem runTicks_keeps (n : Nat) (s : State) : Slotwise TickKeeps s.slots (runTicks n s).slots := by
  induction n generalizing s with
  | zero => exact .refl TickKeeps.refl _
  | succ n ih =>
    have hscan : Slotwise TickKeeps s.slots (s.slots.map (tickSlot s.params)) := .map (tickSlot_keeps s.params) _
    obtain ⟨_, _, h⟩ | ⟨_, _, h⟩ | ⟨_, _, _, _, _, h⟩ | ⟨_, _, _, _, _, h⟩ := runTicks_tick_cases n s <;> rw [h]
    · exact .refl TickKeeps.refl _
    · exact .refl TickKeeps.refl _
    · exact hscan
    · exact hscan.trans (ih _) fun _ _ _ => .trans

/-- Frames are taken from the front and appended at the end, one for one but for a frame that is held. -/
theorem runTicks_streams (n : Nat) {s : State} (hw : s.wait = none) :
    ∃ taken emitted, s.framesIn = taken ++ (runTicks n s).framesIn ∧
      (runTicks n s).framesOut = s.framesOut ++ emitted ∧ taken.length ≤ n ∧
      taken.length = emitted.length + if ((runTicks n s).wait.bind (·.held)).isSome then 1 else 0 := by
  induction n generalizing s with
  | zero => exact ⟨[], [], rfl, by simp, by simp [hw]⟩
  | succ n ih =>
    obtain ⟨_, _, h⟩ | ⟨_, _, h⟩ | ⟨x, rest, _, hf, _, h⟩ | ⟨x, rest, _, hf, _, h⟩ := runTicks_tick_cases n s <;> rw [h]
    · exact ⟨[], [], rfl, by simp, by simp [hw]⟩
    · exact ⟨[], [], rfl, by simp, by simp⟩
    · exact ⟨[x], [], hf, by simp, by simp⟩
    · obtain ⟨taken, emitted, hin, hout, hlen, hcount⟩ := ih (s := completeTick x rest s) hw
      refine ⟨x :: taken, tickFrame s x :: emitted, ?_, ?_, Nat.succ_le_succ hlen, ?_⟩
      · rw [hf, List.cons_append, ← hin, completeTick_framesIn]
      · rw [hout, completeTick_framesOut, List.append_assoc, List.singleton_append]
      · rw [List.length_cons, hcount, List.length_cons, Nat.add_right_comm]

/-- Settles O26: `STATUS` by `runTicks_status_cases`, the slots by `TickKeeps`, the frames by `runTicks_streams`. -/
theorem renderLeavesTheRestAlone : Obligations.RenderLeavesTheRestAlone := by
  intro n s t hw h
  obtain rfl := Host.Outcome.next.inj h
  obtain ⟨hlen, hkeeps⟩ := runTicks_keeps n s
  refine ⟨runTicks_cfg n s, runTicks_params n s, runTicks_port n s, runTicks_badcmd n s, fun hfault => ?_, hlen,
    runTicks_streams n hw, hkeeps⟩
  obtain hsame | ⟨_, k, _, _, hrun⟩ := runTicks_status_cases n s
  · exact .inl hsame
  · rw [hrun] at hfault
    exact .inr hfault.symm

/-! ### A RENDER that completes -/

theorem nthFrame_zero {s : State} {x : Frame} {rest : List Frame} (hf : s.framesIn = x :: rest) :
    nthFrame s 0 = tickFrame s x := by
  rw [nthFrame, hf]
  rfl

theorem nthFrame_succ {s : State} {x : Frame} {rest : List Frame} (hf : s.framesIn = x :: rest) (k : Nat) :
    nthFrame s (k + 1) = nthFrame (completeTick x rest s) k := by
  rw [nthFrame, nthFrame, hf]
  rfl

theorem runTicks_of_supplied (n : Nat) {s : State} (hgood : NoSlot badSlot s.slots) (hin : n ≤ s.framesIn.length)
    (hout : ∀ r ∈ s.outRoom, n ≤ r) :
    runTicks n s =
      { s with
        slots := (tickAll s.params)^[n] s.slots
        framesIn := s.framesIn.drop n
        outRoom := s.outRoom.map (· - n)
        framesOut := s.framesOut ++ (List.range n).map (nthFrame s) } := by
  induction n generalizing s with
  | zero => simp
  | succ n ih =>
    obtain ⟨x, rest, hf⟩ := List.exists_cons_of_length_pos (Nat.zero_lt_of_lt hin)
    have hroom : s.outRoom ≠ some 0 := fun h => Nat.not_succ_le_zero n (hout 0 h)
    have hrest : n ≤ rest.length := by simpa [hf] using hin
    have hout' : ∀ r ∈ (completeTick x rest s).outRoom, n ≤ r := by
      intro r hr
      obtain ⟨r', hr', rfl⟩ := Option.map_eq_some_iff.mp hr
      exact Nat.le_sub_one_of_lt (hout r' hr')
    rw [runTicks_succ_of_complete hgood hf hroom,
      ih (noSlot_badSlot_map_tickSlot hgood s.params) (by simpa using hrest) hout']
    apply State.ext_fields
    case h6 => simp [hf]
    case h7 => simp [Option.map_map, Function.comp_def, Nat.sub_sub, Nat.add_comm 1 n]
    case h8 =>
      simp only [completeTick_framesOut, List.range_succ_eq_map, List.map_cons, List.map_map, nthFrame_zero hf,
        Function.comp_def, Nat.succ_eq_add_one, nthFrame_succ hf, List.append_assoc, List.singleton_append]
    all_goals rfl

/-- Settles O22, by `runTicks_of_supplied`, an induction on the ticks. -/
theorem renderCompletes : Obligations.RenderCompletes :=
  fun n _ hgood hin hout => congrArg Host.Outcome.next (runTicks_of_supplied n hgood hin hout)

/-! ### A block with no active slot -/

theorem tickAll_of_all_free (p : Params) {slots : List Slot} (h : ∀ v ∈ slots, v.valid = false) :
    tickAll p slots = slots :=
  (List.map_congr_left fun v hv => tickSlot_of_not_valid (h v hv) p).trans (List.map_id _)

theorem accumulate_of_all_free (p : Params) {slots : List Slot} (h : ∀ v ∈ slots, v.valid = false) :
    accumulate p slots = 0 := by
  refine List.sum_eq_zero fun a ha => ?_
  obtain ⟨v, hv, rfl⟩ := List.mem_map.mp ha
  rw [voiceProduct, if_neg (Bool.eq_false_iff.mp (h v hv))]

@[simp] theorem mixValue_zero (c : Config) : mixValue c 0 = 0 := by simp [mixValue_eq_int_tdiv]

theorem sat24_toInt_self (a : Sample) : sat24 a.toInt = a := by
  have hlo : -8388608 ≤ a.toInt := a.le_toInt
  have hhi : a.toInt < 8388608 := a.toInt_lt
  refine BitVec.eq_of_toInt_eq ((sat24_toInt _).trans ?_)
  rw [clamp]
  omega

@[simp] theorem mixFrame_zero (x : Frame) : mixFrame x 0 = x := by simp [mixFrame, sat24_toInt_self]

theorem nthFrame_of_all_free {s : State} (h : ∀ v ∈ s.slots, v.valid = false) (k : Nat) :
    nthFrame s k = s.framesIn.getD k [] := by
  rw [nthFrame, Function.iterate_fixed (tickAll_of_all_free s.params h), accumulate_of_all_free s.params h,
    mixValue_zero, mixFrame_zero]

/-- Settles O27: the RENDER completes, its ticks leave the slots as they are, and every mix value is 0. -/
theorem idleBlockPassesFramesThrough : Obligations.IdleBlockPassesFramesThrough := by
  intro n s hfree hin hout
  have hgood : NoSlot badSlot s.slots := fun v hv => by simp [badSlot, hfree v hv]
  refine ⟨_, renderCompletes n s hgood hin hout, Function.iterate_fixed (tickAll_of_all_free s.params hfree) n, rfl,
    congrArg (s.framesOut ++ ·) ?_, rfl, rfl, rfl⟩
  refine List.ext_getElem (by simp [hin]) fun k hk _ => ?_
  have hk : k < n := by simpa using hk
  simp [nthFrame_of_all_free hfree, hk.trans_le hin]

/-! ### RENDERs in a row -/

theorem runTicks_add (a b : Nat) {s : State} (hfault : (runTicks a s).status.fault = false)
    (hwait : (runTicks a s).wait = none) : runTicks (a + b) s = runTicks b (runTicks a s) := by
  induction a generalizing s with
  | zero => rw [Nat.zero_add, runTicks_zero]
  | succ a ih =>
    obtain ⟨_, _, h⟩ | ⟨_, _, h⟩ | ⟨_, _, _, _, _, h⟩ | ⟨x, rest, hgood, hf, hr, h⟩ := runTicks_tick_cases a s
    · rw [h] at hfault; exact Bool.noConfusion hfault
    · rw [h] at hwait; exact absurd hwait nofun
    · rw [h] at hwait; exact absurd hwait nofun
    · rw [h] at hfault hwait ⊢
      rw [Nat.add_right_comm, runTicks_succ_of_complete hgood hf hr, ih hfault hwait]

/-- A block that a RENDER halts is halted by its first pre-check, and so by that of a longer one. -/
theorem runTicks_add_of_halted (a b : Nat) {s : State} (hs : s.status.fault = false)
    (h : (runTicks a s).status.fault = true) : runTicks (a + b) s = runTicks a s := by
  obtain hsame | ⟨m, k, rfl, hk, hrun⟩ := runTicks_status_cases a s
  · rw [hsame, hs] at h
    exact Bool.noConfusion h
  · rw [hrun, Nat.add_right_comm, runTicks_succ_of_bad ((lowestBad_eq_some_iff s.slots k).mpr hk)]

/-- Settles O23: a RENDER that completes is continued, and one that halts did so at its first pre-check. -/
theorem renderSplits : Obligations.RenderSplits := by
  intro a b s t hs _ h
  obtain rfl := Host.Outcome.next.inj h
  exact ⟨fun hfault hwait => congrArg Host.Outcome.next (runTicks_add a b hfault hwait),
    fun hfault => congrArg Host.Outcome.next (runTicks_add_of_halted a b hs hfault)⟩

end Sys2Proof.Machine
end

