-- ==== Sys2Proof/Proofs/Loop.lean ====
section
/-!
The command loop (R150, R182, R201, R218): what a step is for a block between two commands, for a halted one and for one
that waits in a RENDER. A RENDER that waits has only been cut in two: `runTicks_resume_starved` and `runTicks_resume_held`
say that its rest, with what the host supplies now, is the whole RENDER with that supplied from the start.
-/

namespace Sys2Proof.Machine

/-! ### Between two commands -/

theorem takeWord_of_command {w : Word} {i : Instr} (hd : decode w = .command i) (s : State) :
    takeWord w s = exec i s := by
  rw [takeWord, hd]

/-- Settles O9: a ready block takes the word and executes what it decodes to. -/
theorem stepRunsTheDecodedCommand : Obligations.StepRunsTheDecodedCommand := by
  intro s w rest i hready hport hd
  rw [step_of_ready_word hready hport, takeWord_of_command hd]

theorem decode_of_decodeTableWord {nbits w : Nat} {i : Instr} (h : decodeTableWord nbits w = some i) :
    decode (tableWord nbits w) = .command i := by
  unfold decodeTableWord at h
  split at h
  · next hd => rw [hd, Option.some.inj h]
  · exact absurd h nofun

/-- Settles O10: the word is placed at the front of the port, and taking it gives the state back. -/
theorem fetchWordRunsNext : Obligations.FetchWordRunsNext := fun s nbits w i hready hd =>
  stepRunsTheDecodedCommand (s.withFetchWord nbits w) (tableWord nbits w) s.port i hready rfl
    (decode_of_decodeTableWord hd)

/-- Settles O11: `readyStep` on an empty port. -/
theorem idleBlockWaitsForAWord : Obligations.IdleBlockWaitsForAWord := by
  intro s hready hport
  rw [step_of_ready hready, readyStep, hport]

/-- Settles O14: reset does not touch the host's side of the ports. -/
theorem resetLeavesTheStreams : Obligations.ResetLeavesTheStreams := fun _ _ hready hport =>
  ⟨_, step_of_ready_reset hready hport, rfl, rfl, rfl, rfl, rfl⟩

/-! ### A halted block -/

theorem haltedStep_of_onlyWords {s : State} (h : OnlyWords s.port) : haltedStep s = .fault .halted := by
  rw [haltedStep, h]

theorem haltedStep_of_nextReset {s : State} {rest : List HostEvent} (h : nextReset s.port = some rest) :
    haltedStep s = .next (resetBlock (s.withPort rest)) := by
  rw [haltedStep, h]

theorem resetBlock_withPort_of_step_of_halted {s t : State} (h : step s = .next t) (hf : s.Halted) :
    ∃ rest, t = resetBlock (s.withPort rest) := by
  obtain ⟨_, ⟨_, rest, _, ht⟩ | ⟨hlive, _⟩ | ⟨hlive, _⟩⟩ := step_next_cases h
  · exact ⟨rest, ht⟩
  all_goals exact Bool.noConfusion (hf.symm.trans hlive)

theorem faultLine_eq (st : Status) : faultLine st = st.fault := by
  rw [faultLine, statusWord, BitVec.getLsbD_append]
  simp

/-- Settles O12: a halted block looks for the next reset among the host's events, and does nothing else. -/
theorem haltedBlockOnlyResets : Obligations.HaltedBlockOnlyResets := by
  refine ⟨fun s hc hf hwords => ?_, fun s words rest hc hf hport => ?_, fun s t hf h => ?_, fun s hf => ?_⟩
  · rw [step_of_halted hc hf, haltedStep_of_onlyWords hwords]
  · rw [step_of_halted hc hf, haltedStep_of_nextReset (hport ▸ nextReset_after_words words rest)]
  · obtain ⟨rest, rfl⟩ := resetBlock_withPort_of_step_of_halted h hf
    exact ⟨rfl, rfl, rfl⟩
  · rw [faultLine_eq, hf]

/-- Settles O20: the word is the weighted sum of its fields, and the fields below bit 4 are less than 16. -/
theorem statusWordLayout : Obligations.StatusWordLayout := by
  intro st
  refine ⟨statusWord_toNat st, ?_, faultLine_eq st⟩
  have hfcode : st.fcode.toNat < 4 := st.fcode.isLt
  rw [statusWord_toNat]
  split <;> split <;> omega

/-! ### A block that waits in a RENDER -/

theorem waitingStep_of_canGoOn {r : RenderWait} {s : State} (h : canGoOn r s = true) :
    waitingStep r s = .next (goOn r s) := if_pos h

theorem waitingStep_of_onlyWords {r : RenderWait} {s : State} (h : canGoOn r s = false) (hwords : OnlyWords s.port) :
    waitingStep r s = .next s := by
  rw [waitingStep, h, hwords]
  rfl

theorem waitingStep_of_nextReset {r : RenderWait} {s : State} {rest : List HostEvent} (h : canGoOn r s = false)
    (hreset : nextReset s.port = some rest) : waitingStep r s = .next (resetBlock (s.withPort rest)) := by
  rw [waitingStep, h, hreset]
  rfl

theorem canGoOn_of_held {r : RenderWait} (h : r.held ≠ none) (s : State) : canGoOn r s = hasRoom s := by
  obtain ⟨f, hf⟩ := Option.ne_none_iff_exists'.mp h
  rw [canGoOn, hf]

theorem canGoOn_of_not_held {r : RenderWait} (h : r.held = none) (s : State) :
    canGoOn r s = (r.left == 0 || !s.framesIn.isEmpty) := by
  rw [canGoOn, h]

/-- Settles O25: without the frame or the acceptance the block does not go on. -/
theorem starvedRenderWaits : Obligations.StarvedRenderWaits := by
  intro s r hc hf hw hlacks
  have hstuck : canGoOn r s = false := by
    obtain ⟨hheld, hleft, hin⟩ | ⟨hheld, hroom⟩ := hlacks
    · simp [canGoOn_of_not_held hheld, hleft, hin]
    · simp [canGoOn_of_held hheld, hasRoom, hroom]
  rw [step_of_wait hc hf hw]
  exact ⟨fun hwords => waitingStep_of_onlyWords hstuck hwords,
    fun words rest hport => waitingStep_of_nextReset hstuck (hport ▸ nextReset_after_words words rest)⟩

/-! ### A RENDER that waited goes on -/

/-- A RENDER that waits is not halted. -/
theorem runTicks_status_of_wait {n : Nat} {s : State} (hs : s.wait = none) (hw : (runTicks n s).wait ≠ none) :
    (runTicks n s).status = s.status := by
  obtain hsame | ⟨_, _, _, _, hrun⟩ := runTicks_status_cases n s
  · exact hsame
  · rw [hrun] at hw
    exact absurd hs hw

/-- The ticks that a starved RENDER has left, on the frames supplied now, are the whole RENDER on all the frames. -/
theorem runTicks_resume_starved {n : Nat} {s : State} (hs : s.wait = none) {r : RenderWait}
    (hw : (runTicks n s).wait = some r) (hheld : r.held = none) (more : List Frame) :
    runTicks r.left (((runTicks n s).withFramesIn more).withWait none) =
      runTicks n (s.withFramesIn (s.framesIn ++ more)) := by
  induction n generalizing s with
  | zero => exact absurd (hw.symm.trans hs) nofun
  | succ n ih =>
    obtain ⟨_, _, h⟩ | ⟨_, hin, h⟩ | ⟨_, _, _, _, _, h⟩ | ⟨x, rest, hgood, hin, hroom, h⟩ := runTicks_tick_cases n s
      <;> rw [h] at hw ⊢
    · exact absurd (hw.symm.trans hs) nofun
    · obtain rfl := Option.some.inj hw
      refine congrArg (runTicks (n + 1)) ?_
      apply State.ext_fields
      case h4 => exact hs.symm
      case h6 => rw [hin]; rfl
      all_goals rfl
    · obtain rfl := Option.some.inj hw
      exact absurd hheld nofun
    · have hin' : s.framesIn ++ more = x :: (rest ++ more) := by rw [hin, List.cons_append]
      rw [runTicks_succ_of_complete (s := s.withFramesIn (s.framesIn ++ more)) hgood hin' hroom]
      exact ih hs hw

/-- The held frame and the ticks left, with the acceptance given now, are the whole RENDER with it from the start. -/
theorem runTicks_resume_held {n : Nat} {s : State} (hs : s.wait = none) {r : RenderWait} {f : Frame}
    (hw : (runTicks n s).wait = some r) (hheld : r.held = some f) {more : Nat} (hmore : 0 < more) :
    runTicks r.left (frameOut f (((runTicks n s).withOutRoom (some more)).withWait none)) =
      runTicks n (s.withOutRoom (s.outRoom.map (· + more))) := by
  induction n generalizing s with
  | zero => exact absurd (hw.symm.trans hs) nofun
  | succ n ih =>
    have hroom' : s.outRoom.map (· + more) ≠ some 0 := by
      intro h0
      obtain ⟨k, _, hk⟩ := Option.map_eq_some_iff.mp h0
      omega
    obtain ⟨_, _, h⟩ | ⟨_, _, h⟩ | ⟨x, rest, hgood, hin, hroom, h⟩ | ⟨x, rest, hgood, hin, hroom, h⟩ :=
      runTicks_tick_cases n s <;> rw [h] at hw ⊢
    · exact absurd (hw.symm.trans hs) nofun
    · obtain rfl := Option.some.inj hw
      exact absurd hheld nofun
    · obtain rfl := Option.some.inj hw
      obtain rfl := Option.some.inj hheld
      rw [runTicks_succ_of_complete (s := s.withOutRoom (s.outRoom.map (· + more))) hgood hin hroom']
      refine congrArg (runTicks n) ?_
      apply State.ext_fields
      case h4 => exact hs.symm
      case h7 => simp [hroom]
      all_goals rfl
    · rw [runTicks_succ_of_complete (s := s.withOutRoom (s.outRoom.map (· + more))) hgood hin hroom',
        ih (s := completeTick x rest s) hs hw]
      refine congrArg (runTicks n) ?_
      apply State.ext_fields
      case h7 =>
        cases hout : s.outRoom with
        | none => simp [hout]
        | some k =>
          have hk : k ≠ 0 := fun h0 => hroom (h0 ▸ hout)
          simp [hout]
          omega
      all_goals rfl

/-- Settles O24: the waiting block can go on, and what it then runs is said by the two lemmas above. -/
theorem waitingRenderGoesOn : Obligations.WaitingRenderGoesOn := by
  intro n s t r ⟨hc, hf, hs⟩ h hw
  obtain rfl := Host.Outcome.next.inj h
  have hc' : configOk (runTicks n s).cfg = true := by rw [runTicks_cfg]; exact hc
  have hf' : (runTicks n s).status.fault = false := by
    rw [runTicks_status_of_wait hs (by rw [hw]; nofun), hf]
  refine ⟨fun more hheld hmore => ?_, fun more hheld hmore => ?_⟩
  · have hgo : canGoOn r ((runTicks n s).withFramesIn more) = true := by
      simp [canGoOn_of_not_held hheld, hmore]
    rw [step_of_wait (s := State.withFramesIn _ more) hc' hf' hw, waitingStep_of_canGoOn hgo, exec_render,
      ← runTicks_resume_starved hs hw hheld more, goOn, hheld]
  · obtain ⟨f, hheld'⟩ := Option.ne_none_iff_exists'.mp hheld
    have hgo : canGoOn r ((runTicks n s).withOutRoom (some more)) = true := by
      rw [canGoOn_of_held hheld, hasRoom_iff]
      exact fun h0 => hmore.ne' (Option.some.inj h0)
    rw [step_of_wait (s := State.withOutRoom _ (some more)) hc' hf' hw, waitingStep_of_canGoOn hgo, exec_render,
      ← runTicks_resume_held hs hw hheld' hmore, goOn, hheld']

/-! ### Reset inside a command -/

@[simp] theorem takeInFlight_cfg (s : State) : (takeInFlight s).cfg = s.cfg := by
  unfold takeInFlight
  split <;> rfl

@[simp] theorem takeInFlight_port (s : State) : (takeInFlight s).port = s.port := by
  unfold takeInFlight
  split <;> rfl

@[simp] theorem takeInFlight_framesOut (s : State) : (takeInFlight s).framesOut = s.framesOut := by
  unfold takeInFlight
  split <;> rfl

theorem takeInFlight_framesIn_suffix (s : State) : (takeInFlight s).framesIn <:+ s.framesIn := by
  unfold takeInFlight
  split
  · exact List.suffix_refl _
  · exact List.tail_suffix _

/-- An abandoned RENDER was cut after some of its ticks, with or without the input frame of one more. -/
theorem abandon_of_render {w : Word} {n : Nat} (hd : decode w = .command (.render n)) (ticks : Nat) (inFlight : Bool)
    (s : State) :
    ∃ u, abandon w ticks inFlight s = resetBlock u ∧
      (u = takeInFlight (runTicks (min ticks n) s) ∨ u = runTicks (min ticks n) s) := by
  rw [abandon, hd]
  by_cases h : (inFlight && decide (ticks < n)) = true
  · exact ⟨_, if_pos h, .inl rfl⟩
  · exact ⟨_, if_neg h, .inr rfl⟩

theorem abandon_of_not_render {w : Word} (hd : ∀ n, decode w ≠ .command (.render n)) (ticks : Nat) (inFlight : Bool)
    (s : State) : abandon w ticks inFlight s = resetBlock s := by
  unfold abandon
  split
  · next n hn => exact absurd hn (hd n)
  all_goals rfl

/-- What an abandoned command leaves: a reset block whose streams have moved as far as the command had come. -/
theorem abandon_eq_resetBlock (w : Word) (ticks : Nat) (inFlight : Bool) {s : State} (hs : s.wait = none) :
    ∃ u, abandon w ticks inFlight s = resetBlock u ∧ u.cfg = s.cfg ∧ u.port = s.port ∧ u.framesIn <:+ s.framesIn ∧
      ∃ emitted, u.framesOut = s.framesOut ++ emitted ∧
        (∀ n, decode w = .command (.render n) → emitted.length ≤ min ticks n) ∧
        ((∀ n, decode w ≠ .command (.render n)) → emitted = [] ∧ u.framesIn = s.framesIn) := by
  by_cases hd : ∃ n, decode w = .command (.render n)
  · obtain ⟨n, hd⟩ := hd
    obtain ⟨u, hu, hcut⟩ := abandon_of_render hd ticks inFlight s
    obtain ⟨taken, emitted, hin, hout, hlen, hcount⟩ := runTicks_streams (min ticks n) hs
    have hsuffix : (runTicks (min ticks n) s).framesIn <:+ s.framesIn := ⟨taken, hin.symm⟩
    have hemitted : ∀ m, decode w = .command (.render m) → emitted.length ≤ min ticks m := by
      intro m hm
      obtain rfl : n = m := by simpa [hd] using hm
      omega
    have hnot : (∀ m, decode w ≠ .command (.render m)) → emitted = [] ∧ u.framesIn = s.framesIn :=
      fun h => absurd hd (h n)
    refine ⟨u, hu, ?_⟩
    obtain rfl | rfl := hcut
    · exact ⟨by simp, by simp, (takeInFlight_framesIn_suffix _).trans hsuffix, emitted, by simpa using hout, hemitted,
        hnot⟩
    · exact ⟨by simp, by simp, hsuffix, emitted, hout, hemitted, hnot⟩
  · have hd' : ∀ n, decode w ≠ .command (.render n) := fun n hn => hd ⟨n, hn⟩
    exact ⟨s, abandon_of_not_render hd' ticks inFlight s, rfl, rfl, List.suffix_refl _, [], by simp,
      fun n hn => absurd hn (hd' n), fun _ => ⟨rfl, rfl⟩⟩

theorem step_of_ready_resetDuring {s : State} {w : Word} {ticks : Nat} {inFlight : Bool} {rest : List HostEvent}
    (h : s.Ready) (hp : s.port = .resetDuring w ticks inFlight :: rest) :
    step s = .next (abandon w ticks inFlight (s.withPort rest)) := by
  rw [step_of_ready h, readyStep, hp]

/-- Settles O15: a reset block, with the streams moved as far as the command had come. -/
theorem resetDuringACommandAbandonsIt : Obligations.ResetDuringACommandAbandonsIt := by
  intro s w ticks inFlight rest hready hport
  have ⟨_, _, hs⟩ := hready
  obtain ⟨u, hu, hcfg, hp, hin, hout⟩ := abandon_eq_resetBlock w ticks inFlight (s := s.withPort rest) hs
  refine ⟨resetBlock u, hu ▸ step_of_ready_resetDuring hready hport, ?_, ?_, rfl, rfl, hp, hcfg, hout, hin⟩
  · rw [resetBlock_slots, hcfg, State.withPort_cfg]
  · rw [resetBlock_params, hcfg, State.withPort_cfg]

/-! ### The configuration -/

@[simp] theorem goOn_cfg (r : RenderWait) (s : State) : (goOn r s).cfg = s.cfg := by
  unfold goOn
  split <;> simp

theorem exec_cfg {i : Instr} {s t : State} (h : exec i s = .next t) : t.cfg = s.cfg := by
  by_cases hi : ∃ n, i = .render n
  · obtain ⟨n, rfl⟩ := hi
    obtain rfl := Host.Outcome.next.inj h
    exact runTicks_cfg n s
  · obtain ⟨u, hu, hframe, _⟩ := onlyRenderMovesFrames i s fun n hn => hi ⟨n, hn⟩
    obtain rfl := Host.Outcome.next.inj (hu.symm.trans h)
    rw [hframe]
    rfl

/-- Settles O36: commands, ticks and resets keep the configuration, and a step is made of these. -/
theorem configurationNeverChanges : Obligations.ConfigurationNeverChanges := by
  intro s t h
  obtain ⟨_, ⟨_, _, _, rfl⟩ | ⟨_, r, _, hwait⟩ | ⟨_, hs, hready⟩⟩ := step_next_cases h
  case inl => rfl
  case inr.inl =>
    obtain ⟨_, rfl⟩ | ⟨_, _, _, rfl⟩ | ⟨_, _, rfl⟩ := hwait
    · exact goOn_cfg r s
    · rfl
    · rfl
  case inr.inr =>
    obtain ⟨_, rfl⟩ | ⟨_, rest, _, _, _, hexec⟩ | ⟨_, _, _, _, rfl⟩ | ⟨_, _, rfl⟩ | ⟨w, k, b, rest, _, rfl⟩ := hready
    · rfl
    · exact exec_cfg (s := s.withPort rest) hexec
    · rfl
    · rfl
    · obtain ⟨u, hu, hcfg, _⟩ := abandon_eq_resetBlock w k b (s := s.withPort rest) hs
      rw [hu]
      exact hcfg

end Sys2Proof.Machine
end

