-- ==== Sys2Proof/Proofs/Invariant.lean ====
section
/-!
The invariant of the reachable states (R39). What it says of one slot is `Slot.Fit`, of the slot file `SlotsFit`; every
operation on a slot keeps the first, and writes over the file keep the second. A step is made of these, of frames that
keep their length, and of resets, so it keeps `State.Inv`; and under `State.Inv` a step always answers a next state.
-/

namespace Sys2Proof.Machine

/-! ### One slot -/

/-- What the invariant says of one slot. -/
def Slot.Fit (c : Config) (v : Slot) : Prop := v.Sound c ∧ v.GainsInRange ∧ v.JustReleased

theorem fit_free (c : Config) : Slot.free.Fit c := ⟨sound_free c, gainsInRange_free, nofun⟩

theorem startLevel_le {p : Params} {las : Gain} (hp : p.sustain.toNat ≤ 32768) (hlas : las.toNat ≤ 32768)
    (st : Sounding) : startLevel p las st ≤ 32768 := by
  cases st with
  | attack => exact Nat.zero_le _
  | decay => exact Nat.le_refl _
  | sustain => exact hp
  | release => exact hlas

theorem endLevel_le {p : Params} (hp : p.sustain.toNat ≤ 32768) (st : Sounding) : endLevel p st ≤ 32768 := by
  cases st with
  | attack => exact Nat.le_refl _
  | release => exact Nat.zero_le _
  | _ => exact hp

theorem toGain_toNat_le {g : Nat} (h : g ≤ 32768) : (toGain g).toNat ≤ 32768 :=
  (toGain_toNat (Nat.lt_of_le_of_lt h (by decide))).trans_le h

/-- INV4: a level, an interpolation between two levels and a gain that was in range are at most 1.0. -/
theorem advance_gainsInRange {p : Params} (hp : p.sustain.toNat ≤ 32768) {v : Slot} (hv : v.GainsInRange)
    (st : Sounding) : (advance p st v).GainsInRange := by
  obtain ⟨hgain, hlas⟩ := hv
  obtain ⟨_, _, h⟩ | ⟨_, _, h⟩ | ⟨he, h⟩ := advance_cases p st v <;> rw [h]
  · exact ⟨toGain_toNat_le (endLevel_le hp st), hlas⟩
  · exact ⟨toGain_toNat_le (startLevel_le hp hgain _), hgain⟩
  · have hmax := (min_le_lerp_le_max (startLevel p v.las st) (endLevel p st) he).2
    exact ⟨toGain_toNat_le (hmax.trans (max_le (startLevel_le hp hlas st) (endLevel_le hp st))), hlas⟩

theorem Slot.Fit.tickSlot {p : Params} (hp : p.sustain.toNat ≤ 32768) {c : Config} {v : Slot} (hv : v.Fit c) :
    (tickSlot p v).Fit c := by
  obtain ⟨h, _⟩ | ⟨_, _, _, _, h⟩ | ⟨st, hvalid, hst, hnotdone, h⟩ := tickSlot_cases p v <;> rw [h]
  · exact hv
  · exact fit_free c
  · obtain ⟨⟨_, hactive⟩, hgains, _⟩ := hv
    obtain ⟨hsound, hvel, hpinc⟩ := hactive hvalid
    refine ⟨⟨fun hfree => ?_, fun _ => ⟨advance_isSounding hsound p st, ?_, ?_⟩⟩, advance_gainsInRange hp hgains st,
      fun _ hrel hzero => ?_⟩
    · rw [stepPhase_valid, advance_valid, hvalid] at hfree
      exact Bool.noConfusion hfree
    · rwa [stepPhase_vel, advance_vel]
    · rwa [stepPhase_pinc, stepPhase_note, advance_pinc, advance_note]
    · exact Bool.noConfusion (hnotdone.symm.trans ((isDone_iff _).mpr ⟨hzero, hrel⟩))

theorem Slot.Fit.releaseSlot {c : Config} {v : Slot} (hv : v.Fit c) (hvalid : v.valid = true) (p : Params) :
    (releaseSlot p v).Fit c := by
  obtain ⟨⟨_, hactive⟩, ⟨hgain, _⟩, _⟩ := hv
  obtain ⟨_, hvel, hpinc⟩ := hactive hvalid
  refine ⟨⟨fun hfree => Bool.noConfusion (hvalid.symm.trans hfree), fun _ => ⟨rfl, hvel, hpinc⟩⟩, ⟨?_, hgain⟩,
    fun _ _ _ => rfl⟩
  rw [releaseSlot_gain]
  split
  · exact Nat.zero_le _
  · exact hgain

theorem fit_startVoice {c : Config} {key vel : Num7} (hvel : vel ≠ 0) {v : Slot} (hvalid : v.valid = true)
    (hkey : v.note = key) (hgains : v.GainsInRange) (p : Params) : (startVoice c p key vel v).Fit c := by
  obtain ⟨_, _, _, hnotRelease⟩ := initialStageSkipsZeroStages p
  refine ⟨⟨fun hfree => Bool.noConfusion (hvalid.symm.trans hfree), fun _ => ⟨rfl, hvel, ?_⟩⟩, hgains,
    fun _ _ _ => rfl⟩
  rw [startVoice_pinc, startVoice_note, hkey]

theorem NoteWrites.fit {key vel : Num7} {s : State} {v w : Slot} (h : NoteWrites key vel s v w) (hv : v.Fit s.cfg) :
    w.Fit s.cfg := by
  have ⟨_, hgains, _⟩ := hv
  cases h with
  | released _ hvalid _ => exact hv.releaseSlot hvalid s.params
  | restarted hvel hvalid hkey => exact fit_startVoice hvel hvalid hkey hgains s.params
  | started hvel _ _ => exact fit_startVoice (v := bindSlot key v) hvel rfl rfl hgains s.params

theorem NoteWrites.valid {key vel : Num7} {s : State} {v w : Slot} (h : NoteWrites key vel s v w) :
    w.valid = true ∧ w.note = key := by
  cases h with
  | released _ hvalid hkey | restarted _ hvalid hkey => exact ⟨hvalid, hkey⟩
  | started => exact ⟨rfl, rfl⟩

/-! ### The slot file -/

/-- INV2 by indices. -/
theorem distinctNotes_iff (slots : List Slot) :
    DistinctNotes slots ↔ ∀ (i j : Nat) (v w : Slot), slots[i]? = some v → slots[j]? = some w →
      v.valid = true → w.valid = true → v.note = w.note → i = j := by
  rw [DistinctNotes, List.Nodup, List.pairwise_map, List.pairwise_filter, List.pairwise_iff_getElem]
  constructor
  · intro h i j v w hi hj hv hw hnote
    obtain ⟨hil, rfl⟩ := List.getElem?_eq_some_iff.mp hi
    obtain ⟨hjl, rfl⟩ := List.getElem?_eq_some_iff.mp hj
    obtain hlt | heq | hgt := Nat.lt_trichotomy i j
    · exact absurd hnote (h i j hil hjl hlt hv hw)
    · exact heq
    · exact absurd hnote.symm (h j i hjl hil hgt hw hv)
  · intro h i j hi hj hlt hv hw hnote
    exact hlt.ne (h i j _ _ (List.getElem?_eq_getElem hi) (List.getElem?_eq_getElem hj) hv hw hnote)

/-- What the invariant says of the slot file. -/
structure SlotsFit (c : Config) (slots : List Slot) : Prop where
  count : slots.length = c.cap
  fit : ∀ v ∈ slots, v.Fit c
  distinct : DistinctNotes slots

namespace SlotsFit

theorem replicate_free (c : Config) : SlotsFit c (List.replicate c.cap Slot.free) := by
  have hfree : ∀ v ∈ List.replicate c.cap Slot.free, v = Slot.free := fun _ => List.eq_of_mem_replicate
  exact ⟨List.length_replicate, fun v hv => hfree v hv ▸ fit_free c, distinctNotes_of_all_free hfree⟩

/-- An operation on every slot that starts no voice and moves no binding. -/
theorem map {c : Config} {slots : List Slot} (h : SlotsFit c slots) {f : Slot → Slot}
    (hfit : ∀ v, v.Fit c → (f v).Fit c) (hbind : ∀ v, (f v).valid = true → v.valid = true ∧ (f v).note = v.note) :
    SlotsFit c (slots.map f) := by
  refine ⟨(List.length_map f).trans h.count, fun w hw => ?_, (distinctNotes_iff _).mpr ?_⟩
  · obtain ⟨v, hv, rfl⟩ := List.mem_map.mp hw
    exact hfit v (h.fit v hv)
  · intro i j v' w' hi hj hv' hw' hnote
    rw [List.getElem?_map, Option.map_eq_some_iff] at hi hj
    obtain ⟨v, hi, rfl⟩ := hi
    obtain ⟨w, hj, rfl⟩ := hj
    obtain ⟨hv, hvn⟩ := hbind v hv'
    obtain ⟨hw, hwn⟩ := hbind w hw'
    exact (distinctNotes_iff slots).mp h.distinct i j v w hi hj hv hw (hvn.symm.trans (hnote.trans hwn))

/-- A write at an index that no other slot's binding stands against. -/
theorem set {c : Config} {slots : List Slot} (h : SlotsFit c slots) {i : Nat} {w : Slot} (hw : w.Fit c)
    (honly : ∀ j u, slots[j]? = some u → u.valid = true → u.note = w.note → j = i) : SlotsFit c (slots.set i w) := by
  refine ⟨List.length_set.trans h.count, fun u hu => ?_, (distinctNotes_iff _).mpr ?_⟩
  · obtain hu | rfl := List.mem_or_eq_of_mem_set hu
    · exact h.fit u hu
    · exact hw
  · have hslot : ∀ {k u}, (slots.set i w)[k]? = some u → (k = i ∧ u = w) ∨ slots[k]? = some u := by
      intro k u hk
      by_cases hik : i = k
      · subst hik
        have hlt : i < slots.length := by simpa using (List.getElem?_eq_some_iff.mp hk).1
        exact .inl ⟨rfl, Option.some.inj (hk.symm.trans (List.getElem?_set_self hlt))⟩
      · exact .inr (by rwa [List.getElem?_set_ne hik] at hk)
    intro j k u u' hj hk hu hu' hnote
    obtain ⟨rfl, rfl⟩ | hj' := hslot hj <;> obtain ⟨rfl, rfl⟩ | hk' := hslot hk
    · rfl
    · exact (honly k u' hk' hu' hnote.symm).symm
    · exact honly j u hj' hu hnote
    · exact (distinctNotes_iff slots).mp h.distinct j k u u' hj' hk' hu hu' hnote

theorem map_tickSlot {c : Config} {slots : List Slot} (h : SlotsFit c slots) {p : Params}
    (hp : p.sustain.toNat ≤ 32768) : SlotsFit c (slots.map (tickSlot p)) := by
  refine h.map (fun v hv => hv.tickSlot hp) fun v hvalid => ?_
  obtain ⟨hkept, _⟩ := tickSlot_keeps p v
  obtain hfree | ⟨hvalid', hnote, _, _⟩ := hkept
  · rw [hfree] at hvalid
    exact Bool.noConfusion hvalid
  · exact ⟨hvalid'.symm.trans hvalid, hnote⟩

theorem releaseAll {c : Config} {slots : List Slot} (h : SlotsFit c slots) (p : Params) :
    SlotsFit c (releaseAll p slots) := by
  refine h.map (fun v hv => ?_) fun v => ?_ <;> unfold releaseIfActive <;> split
  · next hvalid => exact hv.releaseSlot hvalid p
  · exact hv
  · exact fun hvalid => ⟨hvalid, rfl⟩
  · exact fun hvalid => ⟨hvalid, rfl⟩

/-- A NOTE writes the slot of its key, or a free one when its key has none. -/
theorem set_note {s : State} (h : SlotsFit s.cfg s.slots) {key vel : Num7} {i : Nat} {v w : Slot}
    (hi : s.slots[i]? = some v) (hw : NoteWrites key vel s v w) : SlotsFit s.cfg (s.slots.set i w) := by
  obtain ⟨_, hkey⟩ := hw.valid
  refine h.set (hw.fit (h.fit v (List.mem_of_getElem? hi))) fun j u hj hu hnote => ?_
  have hukey : u.note = key := hnote.trans hkey
  cases hw with
  | released _ hv hvkey | restarted _ hv hvkey =>
    exact (distinctNotes_iff _).mp h.distinct j i u v hj hi hu hv (hukey.trans hvkey.symm)
  | started _ _ hnew =>
    exact absurd ((boundTo_iff key u).mpr ⟨hu, hukey⟩) (Bool.eq_false_iff.mp (hnew u (List.mem_of_getElem? hj)))

end SlotsFit

/-! ### The state -/

theorem writeParam_sustain_le {p : Params} (hp : p.sustain.toNat ≤ 32768) (c : Config) (id : Num7) {v : Nat}
    (hv : v ≤ 127) : (writeParam c id v p).sustain.toNat ≤ 32768 := by
  have hsus : (sus v).toNat ≤ 32768 := by
    rw [sus_toNat hv]
    omega
  unfold writeParam
  split_ifs
  · exact hp
  · exact hp
  · exact hsus
  · exact hp
  · exact hp

theorem tickFrame_length (s : State) (x : Frame) : (tickFrame s x).length = x.length := List.length_map _

namespace State.Inv

theorem slotsFit {s : State} (h : s.Inv) : SlotsFit s.cfg s.slots :=
  ⟨h.slotCount, fun v hv => ⟨h.sound v hv, h.gains v hv, h.justReleased v hv⟩, h.distinct⟩

/-- The invariant by its parts. -/
theorem of_parts {s : State} (hc : configOk s.cfg = true) (hslots : SlotsFit s.cfg s.slots)
    (hsus : s.params.sustain.toNat ≤ 32768) (hst : s.status.fault = false ∧ s.status.fcode = 0 ∧ s.status.fslot = 0)
    (hframes : s.FramesFit) : s.Inv where
  config := hc
  slotCount := hslots.count
  sound v hv := (hslots.fit v hv).1
  distinct := hslots.distinct
  gains v hv := (hslots.fit v hv).2.1
  justReleased v hv := (hslots.fit v hv).2.2
  sustain := hsus
  noFault := hst
  frames := hframes

theorem withSlots {s : State} (h : s.Inv) {slots : List Slot} (hslots : SlotsFit s.cfg slots) :
    (s.withSlots slots).Inv := of_parts h.config hslots h.sustain h.noFault h.frames

theorem withParams {s : State} (h : s.Inv) {p : Params} (hp : p.sustain.toNat ≤ 32768) : (s.withParams p).Inv :=
  of_parts h.config h.slotsFit hp h.noFault h.frames

theorem withPort {s : State} (h : s.Inv) (port : List HostEvent) : (s.withPort port).Inv :=
  of_parts h.config h.slotsFit h.sustain h.noFault h.frames

theorem dropIllegal {s : State} (h : s.Inv) : (dropIllegal s).Inv :=
  of_parts h.config h.slotsFit h.sustain h.noFault h.frames

theorem withWait {s : State} (h : s.Inv) {wait : Option RenderWait}
    (hwait : ∀ r ∈ wait, ∀ f ∈ r.held, f.length = s.cfg.nch) : (s.withWait wait).Inv := by
  obtain ⟨hin, hout, _⟩ := h.frames
  exact of_parts h.config h.slotsFit h.sustain h.noFault ⟨hin, hout, hwait⟩

theorem withFramesIn {s : State} (h : s.Inv) {frames : List Frame} (hsub : frames ⊆ s.framesIn) :
    (s.withFramesIn frames).Inv := by
  obtain ⟨hin, hout, hheld⟩ := h.frames
  exact of_parts h.config h.slotsFit h.sustain h.noFault ⟨fun f hf => hin f (hsub hf), hout, hheld⟩

theorem frameOut {s : State} (h : s.Inv) {f : Frame} (hf : f.length = s.cfg.nch) : (frameOut f s).Inv := by
  obtain ⟨hin, hout, hheld⟩ := h.frames
  refine of_parts h.config h.slotsFit h.sustain h.noFault ⟨hin, fun g hg => ?_, hheld⟩
  obtain hg | hg := List.mem_append.mp hg
  · exact hout g hg
  · exact List.eq_of_mem_singleton hg ▸ hf

/-- The voice scan of a tick, and the frame that the tick makes of the one it took. -/
theorem scanVoices {s : State} (h : s.Inv) {x : Frame} {rest : List Frame} (hin : s.framesIn = x :: rest) :
    (scanVoices (s.withFramesIn rest)).Inv ∧ (tickFrame s x).length = s.cfg.nch := by
  obtain ⟨hfit, _, _⟩ := h.frames
  refine ⟨(h.withFramesIn (by simp [hin])).withSlots (h.slotsFit.map_tickSlot h.sustain), ?_⟩
  rw [tickFrame_length, hfit x (by simp [hin])]

theorem runTicks {s : State} (h : s.Inv) (n : Nat) : (runTicks n s).Inv := by
  induction n generalizing s with
  | zero => exact h
  | succ n ih =>
    obtain ⟨i, hi, _⟩ | ⟨_, _, hrun⟩ | ⟨x, rest, _, hin, _, hrun⟩ | ⟨x, rest, _, hin, _, hrun⟩ := runTicks_tick_cases n s
    · obtain ⟨v, hv, hbad⟩ := hi.exists_slot
      exact Bool.noConfusion (hbad.symm.trans (h.noSlot_badSlot v (List.mem_of_getElem? hv)))
    · rw [hrun]
      exact h.withWait (by simp)
    · obtain ⟨hscan, hlen⟩ := h.scanVoices hin
      rw [hrun]
      exact hscan.withWait (by simpa using hlen)
    · obtain ⟨hscan, hlen⟩ := h.scanVoices hin
      rw [hrun]
      exact ih (hscan.frameOut hlen)

theorem goOn {s : State} (h : s.Inv) {r : RenderWait} (hr : s.wait = some r) : (goOn r s).Inv := by
  obtain ⟨_, _, hheld⟩ := h.frames
  have hready : (s.withWait none).Inv := h.withWait nofun
  unfold Machine.goOn
  split
  · next f hf => exact (hready.frameOut (hheld r hr f hf)).runTicks r.left
  · exact hready.runTicks r.left

theorem takeInFlight {s : State} (h : s.Inv) : (takeInFlight s).Inv := by
  unfold Machine.takeInFlight
  split
  · exact h
  · exact h.withFramesIn (List.tail_subset _)

end State.Inv

/-- Reset gives the invariant back, if the frames at the ports fit. -/
theorem inv_resetBlock {u : State} (hc : configOk u.cfg = true) (hin : ∀ f ∈ u.framesIn, f.length = u.cfg.nch)
    (hout : ∀ f ∈ u.framesOut, f.length = u.cfg.nch) : (resetBlock u).Inv := by
  obtain ⟨_, hsustain⟩ := configOk_resetValues hc
  obtain ⟨_, _, hread, _⟩ := ofReset_toNat hc
  exact .of_parts hc (.replicate_free u.cfg) (hread.trans_le hsustain) ⟨rfl, rfl, rfl⟩ ⟨hin, hout, nofun⟩

theorem State.Inv.resetBlock {u : State} (h : u.Inv) : (resetBlock u).Inv := by
  obtain ⟨hin, hout, _⟩ := h.frames
  exact inv_resetBlock h.config hin hout

/-- Settles O16: the reset state is a reset block with no frames at its ports. -/
theorem resetStateMeetsTheInvariant : Obligations.ResetStateMeetsTheInvariant := by
  have hreset : ∀ c : Config, configOk c = true → (State.resetOf c).Inv := fun c hc =>
    inv_resetBlock (u := State.resetOf c) hc nofun nofun
  exact ⟨hreset, hreset Config.default (by decide +kernel)⟩

theorem State.Inv.abandon {s : State} (h : s.Inv) (w : Word) (ticks : Nat) (inFlight : Bool) :
    (abandon w ticks inFlight s).Inv := by
  by_cases hd : ∃ n, decode w = .command (.render n)
  · obtain ⟨n, hd⟩ := hd
    obtain ⟨u, hu, hcut⟩ := abandon_of_render hd ticks inFlight s
    rw [hu]
    obtain rfl | rfl := hcut
    · exact (h.runTicks _).takeInFlight.resetBlock
    · exact (h.runTicks _).resetBlock
  · rw [abandon_of_not_render fun n hn => hd ⟨n, hn⟩]
    exact h.resetBlock

theorem exec_keeps_inv {i : Instr} {s t : State} (hs : s.Inv) (h : exec i s = .next t) : t.Inv := by
  cases i with
  | note key vel =>
    obtain hsame | ⟨i, v, w, _, hi, hw, hset⟩ := exec_note_cases key vel s
    · obtain rfl := Host.Outcome.next.inj (hsame.symm.trans h)
      exact hs
    · obtain rfl := Host.Outcome.next.inj (hset.symm.trans h)
      exact hs.withSlots (hs.slotsFit.set_note hi hw)
  | ctrl id raw =>
    obtain rfl := Host.Outcome.next.inj h
    exact hs.withParams (writeParam_sustain_le hs.sustain s.cfg id (ctrlValue_le raw))
  | asoff =>
    obtain rfl := Host.Outcome.next.inj h
    exact hs.withSlots (hs.slotsFit.releaseAll s.params)
  | render n =>
    obtain rfl := Host.Outcome.next.inj h
    exact hs.runTicks n

/-- Settles O17: each thing that a step can be keeps the invariant. -/
theorem everyStepKeepsTheInvariant : Obligations.EveryStepKeepsTheInvariant := by
  intro s t hs h
  obtain ⟨_, ⟨_, rest, _, rfl⟩ | ⟨_, r, hr, hwait⟩ | ⟨_, _, hready⟩⟩ := step_next_cases h
  case inl => exact (hs.withPort rest).resetBlock
  case inr.inl =>
    obtain ⟨_, rfl⟩ | ⟨_, rest, _, rfl⟩ | ⟨_, _, rfl⟩ := hwait
    · exact hs.goOn hr
    · exact (hs.withPort rest).resetBlock
    · exact hs
  case inr.inr =>
    obtain ⟨_, rfl⟩ | ⟨_, rest, _, _, _, hexec⟩ | ⟨_, rest, _, _, rfl⟩ | ⟨rest, _, rfl⟩ | ⟨w, k, b, rest, _, rfl⟩ := hready
    · exact hs
    · exact exec_keeps_inv (hs.withPort rest) hexec
    · exact (hs.withPort rest).dropIllegal
    · exact (hs.withPort rest).resetBlock
    · exact (hs.withPort rest).abandon w k b

/-! ### Runs -/

theorem takeWord_answers (w : Word) (s : State) : ∃ t, takeWord w s = .next t := by
  unfold takeWord
  split
  · exact exec_answers _ s
  · exact ⟨_, rfl⟩

theorem readyStep_answers (s : State) : ∃ t, readyStep s = .next t := by
  unfold readyStep
  split
  case h_2 w rest _ => exact takeWord_answers w _
  all_goals exact ⟨_, rfl⟩

theorem waitingStep_answers (r : RenderWait) (s : State) : ∃ t, waitingStep r s = .next t := by
  unfold waitingStep
  split
  · exact ⟨_, rfl⟩
  · split <;> exact ⟨_, rfl⟩

/-- Only a halted block or a bad configuration stops a step. -/
theorem step_answers {s : State} (hc : configOk s.cfg = true) (hf : s.status.fault = false) :
    ∃ t, step s = .next t := by
  cases hw : s.wait with
  | none => exact step_of_ready ⟨hc, hf, hw⟩ ▸ readyStep_answers s
  | some r => exact step_of_wait hc hf hw ▸ waitingStep_answers r s

theorem run_succ_of_next {M : Host.Core} {s t : M.State} (h : M.step s = .next t) (k : Nat) :
    M.run (k + 1) s = M.run k t := by
  rw [Host.Core.run, h]

/-- A run from a state that meets the invariant ends in one. -/
theorem run_keeps_inv (k : Nat) {s : State} (hs : s.Inv) : ∃ t : State, core.run k s = .next t ∧ t.Inv := by
  induction k generalizing s with
  | zero => exact ⟨s, rfl, hs⟩
  | succ k ih =>
    obtain ⟨u, hu⟩ := step_answers hs.config hs.noFault.1
    obtain ⟨t, ht, hinv⟩ := ih (everyStepKeepsTheInvariant s u hs hu)
    exact ⟨t, (run_succ_of_next (M := core) hu k).trans ht, hinv⟩

/-- Settles O18: a run keeps the invariant, and the invariant records no fault. -/
theorem runsFromTheInvariantNeverStop : Obligations.RunsFromTheInvariantNeverStop := by
  intro k s hs
  obtain ⟨t, ht, hinv⟩ := run_keeps_inv k hs
  exact ⟨t, ht, hinv.noFault.1⟩

end Sys2Proof.Machine
end

