-- ==== Sys2Proof/Proofs/Velocity.lean ====
section
/-!
Velocity is stored and read by nothing (R24, R152 (e)). Forgetting the velocities commutes with every command: the
searches of the slot file do not look at them, no operation on a slot but the start of a voice touches them, and the mix
does not depend on them. So what a command does to a state is known, up to velocities, from the state without them.
-/

namespace Sys2Proof.Machine

/-! ### One slot -/

theorem forgetVel_bindSlot (key : Num7) (v : Slot) : (bindSlot key v).forgetVel = bindSlot key v.forgetVel := rfl

theorem forgetVel_startVoice (c : Config) (p : Params) (key vel : Num7) (v : Slot) :
    (startVoice c p key vel v).forgetVel = startVoice c p key 0 v.forgetVel := rfl

theorem forgetVel_releaseSlot (p : Params) (v : Slot) :
    (releaseSlot p v).forgetVel = releaseSlot p v.forgetVel := rfl

theorem forgetVel_releaseIfActive (p : Params) (v : Slot) :
    (releaseIfActive p v).forgetVel = releaseIfActive p v.forgetVel := apply_ite Slot.forgetVel _ _ _

theorem forgetVel_advance (p : Params) (st : Sounding) (v : Slot) :
    (advance p st v).forgetVel = advance p st v.forgetVel := by
  unfold advance
  rw [apply_ite Slot.forgetVel, apply_ite Slot.forgetVel]
  rfl

theorem forgetVel_tickVoice (p : Params) (st : Sounding) (v : Slot) :
    (tickVoice p st v).forgetVel = tickVoice p st v.forgetVel := by
  unfold tickVoice
  rw [apply_ite Slot.forgetVel, ← forgetVel_advance]
  rfl

theorem forgetVel_tickSlot (p : Params) (v : Slot) : (tickSlot p v).forgetVel = tickSlot p v.forgetVel := by
  cases hv : v.valid with
  | false => rw [tickSlot_of_not_valid hv, tickSlot_of_not_valid (v := v.forgetVel) hv]
  | true =>
    cases hst : v.stage with
    | sounding st => simpa [tickSlot, Slot.forgetVel, hv, hst] using forgetVel_tickVoice p st v
    | _ => simp [tickSlot, Slot.forgetVel, hv, hst]

theorem voiceProduct_forgetVel (p : Params) (v : Slot) : voiceProduct p v.forgetVel = voiceProduct p v := by
  have hgain (st : Sounding) : (advance p st v.forgetVel).gain = (advance p st v).gain := by
    rw [← forgetVel_advance]
    rfl
  unfold voiceProduct
  simp only [hgain]
  rfl

/-! ### The slot file -/

theorem find_map_forgetVel (key : Num7) (slots : List Slot) :
    find key (slots.map Slot.forgetVel) = find key slots := List.findIdx?_map

theorem firstFree_map_forgetVel (slots : List Slot) : firstFree (slots.map Slot.forgetVel) = firstFree slots :=
  List.findIdx?_map

theorem lowestBad_map_forgetVel (slots : List Slot) : lowestBad (slots.map Slot.forgetVel) = lowestBad slots :=
  List.findIdx?_map

theorem accumulate_map_forgetVel (p : Params) (slots : List Slot) :
    accumulate p (slots.map Slot.forgetVel) = accumulate p slots := by
  simp only [accumulate, List.map_map, Function.comp_def, voiceProduct_forgetVel]

/-- A write at an index, up to velocities. -/
theorem map_forgetVel_modify {f g : Slot → Slot} (h : ∀ v, (f v).forgetVel = g v.forgetVel) (slots : List Slot)
    (i : Nat) : (slots.modify i f).map Slot.forgetVel = (slots.map Slot.forgetVel).modify i g := by
  refine List.ext_getElem? fun j => ?_
  simp only [List.getElem?_map, List.getElem?_modify, Option.map_eq_map, Option.map_map]
  refine congrArg (Option.map · slots[j]?) (funext fun v => ?_)
  by_cases hij : i = j <;> simp [hij, h]

/-- An operation on every slot, up to velocities. -/
theorem map_forgetVel_map {f : Slot → Slot} (h : ∀ v, (f v).forgetVel = f v.forgetVel) (slots : List Slot) :
    (slots.map f).map Slot.forgetVel = (slots.map Slot.forgetVel).map f := by
  simp only [List.map_map, Function.comp_def, h]

/-! ### The state -/

@[simp] theorem forgetVel_slots (s : State) : s.forgetVel.slots = s.slots.map Slot.forgetVel := rfl
@[simp] theorem forgetVel_params (s : State) : s.forgetVel.params = s.params := rfl

theorem forgetVel_noteOff (key : Num7) (s : State) : (noteOff key s).forgetVel = noteOff key s.forgetVel := by
  rw [noteOff, noteOff, forgetVel_slots, find_map_forgetVel]
  cases find key s.slots with
  | none => rfl
  | some i =>
    exact congrArg s.forgetVel.withSlots (map_forgetVel_modify (forgetVel_releaseSlot s.params) s.slots i)

theorem forgetVel_noteOn (key vel : Num7) (s : State) : (noteOn key vel s).forgetVel = noteOn key 0 s.forgetVel := by
  have hstart := forgetVel_startVoice s.cfg s.params key vel
  rw [noteOn, noteOn, allocate, allocate, forgetVel_slots, find_map_forgetVel, firstFree_map_forgetVel]
  cases find key s.slots with
  | some i => exact congrArg s.forgetVel.withSlots (map_forgetVel_modify hstart s.slots i)
  | none =>
    cases firstFree s.slots with
    | none => rfl
    | some j =>
      refine congrArg s.forgetVel.withSlots ((map_forgetVel_modify hstart _ j).trans ?_)
      rw [map_forgetVel_modify (forgetVel_bindSlot key)]
      rfl

theorem tickFrame_forgetVel (s : State) (x : Frame) : tickFrame s.forgetVel x = tickFrame s x := by
  rw [tickFrame, forgetVel_slots, forgetVel_params, accumulate_map_forgetVel]
  rfl

theorem forgetVel_scanVoices (s : State) : (scanVoices s).forgetVel = scanVoices s.forgetVel :=
  congrArg s.withSlots (map_forgetVel_map (forgetVel_tickSlot s.params) s.slots)

theorem forgetVel_runTicks (n : Nat) (s : State) : (runTicks n s).forgetVel = runTicks n s.forgetVel := by
  induction n generalizing s with
  | zero => rfl
  | succ n ih =>
    have hbad : lowestBad s.forgetVel.slots = lowestBad s.slots := lowestBad_map_forgetVel s.slots
    have hscan (rest : List Frame) := forgetVel_scanVoices (s.withFramesIn rest)
    obtain ⟨i, hi, h⟩ | ⟨hno, hf, h⟩ | ⟨x, rest, hno, hf, hr, h⟩ | ⟨x, rest, hno, hf, hr, h⟩ := runTicks_succ_cases n s
      <;> rw [h]
    · exact (runTicks_succ_of_bad (hbad.trans hi)).symm
    · exact (runTicks_succ_of_starved (hbad.trans hno) hf).symm
    · rw [runTicks_succ_of_full (s := s.forgetVel) (hbad.trans hno) hf hr, tickFrame_forgetVel]
      exact congrArg (State.withWait · _) (hscan rest)
    · rw [runTicks_succ_of_room (s := s.forgetVel) (hbad.trans hno) hf hr, tickFrame_forgetVel, ih]
      exact congrArg (runTicks n <| frameOut (tickFrame s x) ·) (hscan rest)

/-! ### Commands -/

/-- Settles O32: both results, without velocities, are what the command makes of the one state without velocities. -/
theorem velocityIsNeverHeard : Obligations.VelocityIsNeverHeard := by
  intro i j s t s' hst hij h
  cases i with
  | note key vel =>
    cases j with
    | note key' vel' =>
      obtain ⟨rfl, hvel⟩ := hij
      by_cases hzero : vel = 0
      · obtain rfl := hvel.mp hzero
        subst hzero
        obtain rfl := Host.Outcome.next.inj ((exec_note_zero key s).symm.trans h)
        exact ⟨_, exec_note_zero key t, by rw [forgetVel_noteOff, forgetVel_noteOff, hst]⟩
      · obtain rfl := Host.Outcome.next.inj ((exec_note_of_ne_zero hzero key s).symm.trans h)
        exact ⟨_, exec_note_of_ne_zero (mt hvel.mpr hzero) key t, by rw [forgetVel_noteOn, forgetVel_noteOn, hst]⟩
    | _ => exact hij.elim
  | ctrl id raw =>
    obtain rfl := hij
    obtain rfl := Host.Outcome.next.inj h
    have hparams (u : State) : (u.withParams (writeParam u.cfg id (ctrlValue raw) u.params)).forgetVel =
        u.forgetVel.withParams (writeParam u.forgetVel.cfg id (ctrlValue raw) u.forgetVel.params) := rfl
    exact ⟨_, exec_ctrl id raw t, by rw [hparams, hparams, hst]⟩
  | asoff =>
    obtain rfl := hij
    obtain rfl := Host.Outcome.next.inj h
    have hslots (u : State) : (u.withSlots (releaseAll u.params u.slots)).forgetVel =
        u.forgetVel.withSlots (releaseAll u.forgetVel.params u.forgetVel.slots) :=
      congrArg u.withSlots (map_forgetVel_map (forgetVel_releaseIfActive u.params) u.slots)
    exact ⟨_, exec_asoff t, by rw [hslots, hslots, hst]⟩
  | render n =>
    obtain rfl := hij
    obtain rfl := Host.Outcome.next.inj h
    exact ⟨_, exec_render n t, by rw [forgetVel_runTicks, forgetVel_runTicks, hst]⟩

end Sys2Proof.Machine
end

