-- ==== Sys2Proof/Proofs/Tick.lean ====
section
/-!
One slot in one tick (R170, R173). A slot in Attack, Decay or Sustain is advanced and has its phase stepped; a slot in
Release is freed exactly when its `las` is 0 or its ramp is over. The release tail (R214) is the induction over the ticks
of that ramp.
-/

namespace Sys2Proof.Machine

theorem tickSlot_of_not_done {p : Params} {v : Slot} {st : Sounding} (hv : v.valid = true)
    (hst : v.stage = .sounding st) (hd : isDone (advance p st v) = false) :
    tickSlot p v = stepPhase (advance p st v) := by
  rw [tickSlot, if_pos hv, hst]
  exact if_neg (Bool.eq_false_iff.mp hd)

theorem nextStage_ne_release {st : Sounding} (hne : st ≠ .release) (p : Params) : nextStage p st ≠ .release := by
  cases st with
  | attack => rw [nextStage]; split_ifs <;> decide
  | decay | sustain => exact nofun
  | release => exact absurd rfl hne

theorem advance_stage_ne_release {v : Slot} {st : Sounding} (hst : v.stage = .sounding st) (hne : st ≠ .release)
    (p : Params) : (advance p st v).stage ≠ .sounding .release := by
  have hst' : v.stage ≠ .sounding .release := by rw [hst]; exact fun h => hne (Stage.sounding.inj h)
  obtain ⟨_, _, h⟩ | ⟨_, _, h⟩ | ⟨_, h⟩ := advance_cases p st v <;> rw [h]
  · exact hst'
  · exact fun h => nextStage_ne_release hne p (Stage.sounding.inj h)
  · exact hst'

theorem isDone_eq_false_iff (v : Slot) : isDone v = false ↔ v.stage = .sounding .release → v.gain ≠ 0 := by
  rw [← Bool.not_eq_true, isDone_iff, not_and']

/-- Only Release ends a voice (R108). -/
theorem tickSlot_of_not_release {v : Slot} {st : Sounding} (hv : v.valid = true) (hst : v.stage = .sounding st)
    (hne : st ≠ .release) (p : Params) : tickSlot p v = stepPhase (advance p st v) :=
  tickSlot_of_not_done hv hst
    ((isDone_eq_false_iff _).mpr fun h => absurd h (advance_stage_ne_release hst hne p))

/-- Settles O52: the two answers of a tick are told apart by `isDone`. -/
theorem tickAdvancesStepsAndReclaims : Obligations.TickAdvancesStepsAndReclaims := by
  intro p v
  refine ⟨fun hv => tickSlot_of_not_valid hv p, fun st hv hst => ⟨?_, fun hrel hzero => ?_, fun hlive => ?_⟩⟩
  · obtain ⟨_, _, h⟩ | ⟨_, _, h⟩ | ⟨_, h⟩ := advance_cases p st v <;> rw [h] <;> rfl
  · exact tickSlot_of_done hv hst ((isDone_iff _).mpr ⟨hzero, hrel⟩)
  · have hnot : isDone (advance p st v) = false :=
      (isDone_eq_false_iff _).mpr fun hrel => hlive.resolve_left (not_not_intro hrel)
    rw [tickSlot_of_not_done hv hst hnot, ← advance_phase p st v, ← advance_pinc p st v]
    rfl

/-! ### A slot in Release -/

section
variable {p : Params} {v : Slot}

/-- On its ramp, from a level that is not 0, a Release goes on (R104). -/
theorem tickSlot_release_ramp (hv : v.valid = true) (hst : v.stage = .sounding .release)
    (he : v.elapsed.toNat < p.release.toNat) (hlas : v.las ≠ 0) :
    tickSlot p v = stepPhase (advance p .release v) ∧ (advance p .release v).gain ≠ 0 := by
  have hgain : (advance p .release v).gain ≠ 0 := by
    intro h0
    have hlas' : v.las.toNat ≠ 0 := fun h => hlas (BitVec.eq_of_toNat_eq h)
    have hlerp : lerp v.las.toNat 0 v.elapsed.toNat p.release.toNat = 0 :=
      (advance_gain_of_ramp he).symm.trans (congrArg BitVec.toNat h0)
    exact lerp_ne_end hlas' he hlerp
  exact ⟨tickSlot_of_not_done hv hst ((isDone_eq_false_iff _).mpr fun _ => hgain), hgain⟩

/-- From level 0 the ramp of a Release is 0 throughout. -/
theorem tickSlot_release_of_las_zero (hv : v.valid = true) (hst : v.stage = .sounding .release) (hlas : v.las = 0) :
    tickSlot p v = Slot.free := by
  by_cases he : v.elapsed.toNat < p.release.toNat
  · have hgain : (advance p .release v).gain = 0 := by
      refine BitVec.eq_of_toNat_eq ?_
      rw [advance_release_gain he, hlas]
      exact Nat.zero_sub _
    exact tickSlot_of_done hv hst ((isDone_iff _).mpr ⟨hgain, (advance_stage_of_ramp he).trans hst⟩)
  · exact (release_saturated hst (Nat.le_of_not_lt he)).2 hv

/-- When a tick frees a slot in Release. -/
theorem tickSlot_release_eq_free_iff (hv : v.valid = true) (hst : v.stage = .sounding .release) :
    tickSlot p v = Slot.free ↔ v.las = 0 ∨ p.release.toNat ≤ v.elapsed.toNat := by
  refine ⟨fun hfree => ?_, fun h => ?_⟩
  · by_contra hramp
    obtain ⟨hlas, he⟩ := not_or.mp hramp
    obtain ⟨htick, _⟩ := tickSlot_release_ramp hv hst (Nat.lt_of_not_le he) hlas
    have hvalid : (tickSlot p v).valid = true := by rw [htick, stepPhase_valid, advance_valid, hv]
    rw [hfree] at hvalid
    exact Bool.noConfusion hvalid
  · obtain hlas | hd := h
    · exact tickSlot_release_of_las_zero hv hst hlas
    · exact (release_saturated hst hd).2 hv

end

/-- Settles O41: the ramp of the raised `RELEASE` begins at `las`. -/
theorem snappedSlotSoundsAgainAfterCtrl : Obligations.SnappedSlotSoundsAgainAfterCtrl := by
  intro p v hv hst hzero _ hlas hrel
  have he : v.elapsed.toNat < p.release.toNat := by
    rw [hzero]
    exact Nat.pos_of_ne_zero fun h => hrel (BitVec.eq_of_toNat_eq h)
  obtain ⟨htick, _⟩ := tickSlot_release_ramp hv hst he hlas
  rw [htick]
  refine ⟨(advance_valid p .release v).trans hv, BitVec.eq_of_toNat_eq ?_, (advance_stage_of_ramp he).trans hst⟩
  rw [stepPhase_gain, advance_release_gain he, hzero]
  simp

/-! ### What a tick writes (R101 to R105) -/

theorem countSample_zero : countSample 0 = 1 := by decide

theorem advance_elapsed_of_ramp {p : Params} {st : Sounding} {v : Slot} (he : v.elapsed.toNat < duration p st) :
    (advance p st v).elapsed.toNat = min (v.elapsed.toNat + 1) (2 ^ 32 - 1) := by
  rw [advance_of_ramp he, finishSample_elapsed, countSample_toNat]

theorem advance_las_of_ramp {p : Params} {st : Sounding} {v : Slot} (he : v.elapsed.toNat < duration p st) :
    (advance p st v).las = v.las := by
  rw [advance_of_ramp he, finishSample_las]

/-- Settles O43, stage by stage: a ramp that is not over and Sustain are the first case, and a saturated Attack, Decay or
Release one of the others. -/
theorem stageChangesOfATick : Obligations.StageChangesOfATick := by
  intro p v st hv hst
  cases st with
  | attack =>
    rw [tickSlot_of_not_release hv hst (by decide)]
    by_cases he : v.elapsed.toNat < duration p .attack
    · exact .inl ⟨(advance_valid _ _ _).trans hv, (advance_stage_of_ramp he).trans hst, advance_elapsed_of_ramp he,
        advance_las_of_ramp he, fun _ => ⟨he, advance_gain_of_ramp he⟩, nofun, nofun, nofun⟩
    · have hd := Nat.le_of_not_lt he
      by_cases hdecay : p.decay = 0
      · rw [advance_of_saturated hd (if_pos hdecay) (by decide)]
        exact .inr (.inr (.inl ⟨rfl, hd, hdecay, hv, rfl, countSample_zero, rfl, toGain_of_gain p.sustain⟩))
      · rw [advance_of_saturated hd (if_neg hdecay) (by decide)]
        exact .inr (.inl ⟨rfl, hd, hdecay, hv, rfl, countSample_zero, rfl, rfl⟩)
  | decay =>
    rw [tickSlot_of_not_release hv hst (by decide)]
    by_cases he : v.elapsed.toNat < duration p .decay
    · exact .inl ⟨(advance_valid _ _ _).trans hv, (advance_stage_of_ramp he).trans hst, advance_elapsed_of_ramp he,
        advance_las_of_ramp he, nofun, fun _ => ⟨he, advance_gain_of_ramp he⟩, nofun, nofun⟩
    · have hd := Nat.le_of_not_lt he
      rw [advance_of_saturated (n := .sustain) hd rfl (by decide)]
      exact .inr (.inr (.inr (.inl ⟨rfl, hd, hv, rfl, countSample_zero, rfl, toGain_of_gain p.sustain⟩)))
  | sustain =>
    rw [tickSlot_of_not_release hv hst (by decide), advance_sustain]
    exact .inl ⟨hv, hst, countSample_toNat v.elapsed, rfl, nofun, nofun, fun _ => toGain_of_gain p.sustain, nofun⟩
  | release =>
    by_cases hfree : v.las = 0 ∨ p.release.toNat ≤ v.elapsed.toNat
    · have hzero : p.release.toNat ≤ v.elapsed.toNat ∨ lerp v.las.toNat 0 v.elapsed.toNat p.release.toNat = 0 := by
        refine hfree.symm.imp_right fun hlas => ?_
        rw [hlas]
        exact (lerp_of_ge le_rfl _ _).trans (Nat.zero_sub _)
      exact .inr (.inr (.inr (.inr ⟨rfl, hzero, (tickSlot_release_eq_free_iff hv hst).mpr hfree⟩)))
    · obtain ⟨hlas, he⟩ := not_or.mp hfree
      have he : v.elapsed.toNat < duration p .release := Nat.lt_of_not_le he
      obtain ⟨htick, hgain⟩ := tickSlot_release_ramp hv hst he hlas
      rw [htick]
      exact .inl ⟨(advance_valid _ _ _).trans hv, (advance_stage_of_ramp he).trans hst, advance_elapsed_of_ramp he,
        advance_las_of_ramp he, nofun, nofun, nofun, fun _ => ⟨he, hgain, advance_gain_of_ramp he⟩⟩

/-! ### The release tail -/

/-- A voice `k` ticks after its release at gain `g0`. -/
structure InTail (g0 : Gain) (k : Nat) (v : Slot) : Prop where
  valid : v.valid = true
  stage : v.stage = .sounding .release
  elapsed : v.elapsed.toNat = k
  las : v.las = g0

theorem InTail.tickSlot {g0 : Gain} (hg0 : g0 ≠ 0) {p : Params} {k : Nat} (hk : k < p.release.toNat) {v : Slot}
    (h : InTail g0 k v) :
    InTail g0 (k + 1) (tickSlot p v) ∧ (tickSlot p v).gain.toNat = g0.toNat - g0.toNat * k / p.release.toNat := by
  obtain ⟨hv, hst, rfl, rfl⟩ := h
  obtain ⟨htick, _⟩ := tickSlot_release_ramp hv hst hk hg0
  have hR : p.release.toNat < 2 ^ 24 := p.release.isLt
  have hcount : (advance p .release v).elapsed.toNat = v.elapsed.toNat + 1 :=
    (advance_elapsed_of_ramp hk).trans (Nat.min_eq_left (by omega))
  rw [htick]
  exact ⟨⟨(advance_valid _ _ _).trans hv, (advance_stage_of_ramp hk).trans hst, hcount, advance_las_of_ramp hk⟩,
    advance_release_gain hk⟩

theorem inTail_iterate {g0 : Gain} (hg0 : g0 ≠ 0) {p : Params} {v : Slot} (h : InTail g0 0 v) {k : Nat}
    (hk : k ≤ p.release.toNat) : InTail g0 k ((tickSlot p)^[k] v) := by
  induction k with
  | zero => exact h
  | succ k ih =>
    rw [Function.iterate_succ_apply']
    exact ((ih (Nat.le_of_succ_le hk)).tickSlot hg0 hk).1

/-- Settles O40: `RELEASE` ticks on the ramp, and one more on which it is over. -/
theorem releaseTailIsExact : Obligations.ReleaseTailIsExact := by
  intro p v hv hst
  refine ⟨fun he hlas hgain hR => ⟨fun k hk1 hkR => ?_, ?_⟩, tickSlot_release_of_las_zero hv hst, fun hR => ?_⟩
  · obtain ⟨j, rfl⟩ := Nat.exists_eq_add_of_le' hk1
    have hstart : InTail v.gain 0 v := ⟨hv, hst, by rw [he]; rfl, hlas⟩
    obtain ⟨htail, hg⟩ := (inTail_iterate hgain hstart (Nat.le_of_succ_le hkR)).tickSlot hgain hkR
    rw [Function.iterate_succ_apply']
    exact ⟨htail.valid, htail.stage, hg⟩
  · have hend := inTail_iterate hgain (p := p) ⟨hv, hst, by rw [he]; rfl, hlas⟩ le_rfl
    rw [Function.iterate_succ_apply']
    exact (tickSlot_release_eq_free_iff hend.valid hend.stage).mpr (.inr hend.elapsed.ge)
  · exact (tickSlot_release_eq_free_iff hv hst).mpr (.inr (by rw [hR]; exact Nat.zero_le _))

end Sys2Proof.Machine
end

