-- ==== Sys2Proof/Proofs/Envelope.lean ====
section
/-!
The shape of an envelope (R110). `EnvelopeAt p b st k v` says that the slot has made `k` calls of `advance` in stage `st`.
One call goes from `k` to `k + 1` while the stage lasts, and from the end of a stage to the first call of the next one; a
sample tick of an active slot is such a call too. The rest is counting calls.
-/

namespace Sys2Proof.Machine

/-- The gain that the `k`-th call in a stage returns; the start levels that occur do not depend on `las`. -/
def stageGain (p : Params) (st : Sounding) (k : Nat) : Nat :=
  lerp (startLevel p 0 st) (endLevel p st) (k - 1) (duration p st)

/-- After `k` calls in stage `st`, in a slot whose `valid` is `b`. -/
structure EnvelopeAt (p : Params) (b : Bool) (st : Sounding) (k : Nat) (v : Slot) : Prop where
  valid : v.valid = b
  stage : v.stage = .sounding st
  elapsed : v.elapsed.toNat = min k (2 ^ 32 - 1)
  gain : v.gain.toNat = stageGain p st k

/-- The stage admits a call number `k`: it lasts that long, or it is Sustain. -/
def Lasts (p : Params) (st : Sounding) (k : Nat) : Prop := k ≤ duration p st ∨ st = .sustain

theorem duration_lt (p : Params) (st : Sounding) : duration p st < 2 ^ 24 := by
  cases st with
  | attack => exact p.attack.isLt
  | decay => exact p.decay.isLt
  | sustain => exact Nat.two_pow_pos 24
  | release => exact p.release.isLt

theorem startLevel_of_not_release {st : Sounding} (hne : st ≠ .release) (p : Params) (las las' : Gain) :
    startLevel p las st = startLevel p las' st := by
  cases st with
  | release => exact absurd rfl hne
  | _ => rfl

theorem stageGain_sustain (p : Params) (k : Nat) : stageGain p .sustain k = p.sustain.toNat := by
  rw [stageGain, startLevel, endLevel, lerp_of_le le_rfl, Nat.sub_self, Nat.zero_mul, Nat.zero_div, Nat.add_zero]

theorem stageGain_attack (p : Params) (k : Nat) : stageGain p .attack k = 32768 * (k - 1) / p.attack.toNat :=
  (lerp_of_le (Nat.zero_le _) _ _).trans (Nat.zero_add _)

theorem stageGain_decay {p : Params} (hsus : p.sustain.toNat ≤ 32768) (k : Nat) :
    stageGain p .decay k = 32768 - (32768 - p.sustain.toNat) * (k - 1) / p.decay.toNat := lerp_of_ge hsus _ _

/-! ### One call of `advance` -/

/-- One more call in the same stage; with `k = 0`, the first call after the stage was entered. -/
theorem envelopeAt_advance_same {p : Params} {st : Sounding} (hne : st ≠ .release) {k : Nat} (hk : Lasts p st (k + 1))
    {v : Slot} (hst : v.stage = .sounding st) (he : v.elapsed.toNat = min k (2 ^ 32 - 1)) :
    EnvelopeAt p v.valid st (k + 1) (advance p st v) := by
  have hd := duration_lt p st
  obtain hk | rfl := hk
  · have hek : v.elapsed.toNat = k := by omega
    have hramp : v.elapsed.toNat < duration p st := by omega
    refine ⟨advance_valid p st v, (advance_stage_of_ramp hramp).trans hst, ?_, ?_⟩
    · rw [advance_elapsed_of_ramp hramp, hek]
    · rw [advance_gain_of_ramp hramp, hek, startLevel_of_not_release hne p v.las 0, stageGain, Nat.add_sub_cancel]
  · rw [advance_sustain]
    refine ⟨rfl, hst, ?_, ?_⟩
    · rw [finishSample_elapsed, countSample_toNat, he]
      omega
    · rw [finishSample_gain, toGain_of_gain, stageGain_sustain]

/-- The call that finds the stage over is the first one of the next stage (R103, R104). -/
theorem envelopeAt_advance_next {p : Params} {st n : Sounding} (hn : nextStage p st = n) (hne : n ≠ st)
    (hnr : n ≠ .release) {v : Slot} (hd : duration p st ≤ v.elapsed.toNat) :
    EnvelopeAt p v.valid n 1 (advance p st v) := by
  rw [advance_of_saturated hd hn hne]
  refine ⟨rfl, rfl, ?_, ?_⟩
  · rw [finishSample_elapsed, enterStage_elapsed, countSample_zero]
    rfl
  · rw [finishSample_gain, toGain_toNat (startLevel_lt p v.gain n), stageGain, lerp_zero_elapsed,
      startLevel_of_not_release hnr p v.gain 0]

/-! ### Calls in a row, by `advanceSlot` or by ticks -/

/-- On a slot in Attack, Decay or Sustain whose `valid` is `b`, `f` is `advance`, perhaps with a step of the phase. -/
def CallsAdvance (p : Params) (b : Bool) (f : Slot → Slot) : Prop :=
  ∀ (v : Slot) (st : Sounding), v.valid = b → v.stage = .sounding st → st ≠ .release →
    f v = advance p st v ∨ f v = stepPhase (advance p st v)

theorem callsAdvance_advanceSlot (p : Params) (b : Bool) : CallsAdvance p b (advanceSlot p) :=
  fun _ _ _ hst _ => .inl (advanceSlot_of_sounding hst p)

theorem callsAdvance_tickSlot (p : Params) : CallsAdvance p true (tickSlot p) :=
  fun _ _ hv hst hne => .inr (tickSlot_of_not_release hv hst hne p)

section
variable {p : Params} {b : Bool} {f : Slot → Slot}

/-- What holds after a call of `advance` holds after `f`: the phase is not looked at. -/
theorem CallsAdvance.envelopeAt (hf : CallsAdvance p b f) {v : Slot} {st n : Sounding} {k : Nat} (hv : v.valid = b)
    (hst : v.stage = .sounding st) (hne : st ≠ .release) (h : EnvelopeAt p v.valid n k (advance p st v)) :
    EnvelopeAt p b n k (f v) := by
  subst hv
  obtain hfv | hfv := hf v st rfl hst hne <;> rw [hfv]
  · exact h
  · exact ⟨h.valid, h.stage, h.elapsed, h.gain⟩

/-- The first call after a stage was entered. -/
theorem CallsAdvance.first (hf : CallsAdvance p b f) {v : Slot} {st : Sounding} (hne : st ≠ .release)
    (hst1 : Lasts p st 1) (hv : v.valid = b) (hst : v.stage = .sounding st) (he : v.elapsed = 0) :
    EnvelopeAt p b st 1 (f^[0 + 1] v) :=
  hf.envelopeAt hv hst hne (envelopeAt_advance_same hne hst1 hst (by rw [he]; rfl))

/-- The call after the last one of a stage. -/
theorem CallsAdvance.next (hf : CallsAdvance p b f) {v : Slot} {m : Nat} {st n : Sounding}
    (hn : nextStage p st = n) (hne : n ≠ st) (hnr : n ≠ .release) (hstr : st ≠ .release)
    (h : EnvelopeAt p b st (duration p st) (f^[m] v)) : EnvelopeAt p b n 1 (f^[m + 1] v) := by
  have hd := duration_lt p st
  have hover : duration p st ≤ (f^[m] v).elapsed.toNat := by rw [h.elapsed]; omega
  rw [Function.iterate_succ_apply']
  exact hf.envelopeAt h.valid h.stage hstr (envelopeAt_advance_next hn hne hnr hover)

/-- All the calls of a stage whose first one is call `m + 1`. -/
theorem CallsAdvance.stage_calls (hf : CallsAdvance p b f) {v : Slot} {m : Nat} {st : Sounding} (hne : st ≠ .release)
    (h : EnvelopeAt p b st 1 (f^[m + 1] v)) {k : Nat} (hk1 : 1 ≤ k) (hk : Lasts p st k) :
    EnvelopeAt p b st k (f^[m + k] v) := by
  induction k, hk1 using Nat.le_induction with
  | base => exact h
  | succ k _ ih =>
    have hu := ih (hk.imp_left Nat.le_of_succ_le)
    rw [← Nat.add_assoc, Function.iterate_succ_apply']
    exact hf.envelopeAt hu.valid hu.stage hne
      (envelopeAt_advance_same hne hk hu.stage hu.elapsed)

/-- Sustain, from its first call on. -/
theorem CallsAdvance.sustain_calls (hf : CallsAdvance p b f) {v : Slot} {m : Nat}
    (h : EnvelopeAt p b .sustain 1 (f^[m + 1] v)) {k : Nat} (hk1 : 1 ≤ k) :
    (f^[m + k] v).gain = p.sustain ∧ (f^[m + k] v).stage = .sounding .sustain ∧
      (f^[m + k] v).elapsed.toNat = min k (2 ^ 32 - 1) := by
  have hu := hf.stage_calls (by decide) h hk1 (.inr rfl)
  exact ⟨BitVec.eq_of_toNat_eq (hu.gain.trans (stageGain_sustain p k)), hu.stage, hu.elapsed⟩

/-- In a stage with a duration the count does not saturate. -/
theorem EnvelopeAt.elapsed_eq {st : Sounding} {k : Nat} {v : Slot} (h : EnvelopeAt p b st k v)
    (hk : k ≤ duration p st) : v.elapsed.toNat = k := by
  have hd := duration_lt p st
  rw [h.elapsed]
  omega

/-- Decay, from its first call on. -/
theorem CallsAdvance.decay_calls (hf : CallsAdvance p b f) (hsus : p.sustain.toNat ≤ 32768) {v : Slot} {m : Nat}
    (h : EnvelopeAt p b .decay 1 (f^[m + 1] v)) {k : Nat} (hk1 : 1 ≤ k) (hk : k ≤ p.decay.toNat) :
    (f^[m + k] v).gain.toNat = 32768 - (32768 - p.sustain.toNat) * (k - 1) / p.decay.toNat ∧
      (f^[m + k] v).stage = .sounding .decay ∧ (f^[m + k] v).elapsed.toNat = k := by
  have hu := hf.stage_calls (by decide) h hk1 (.inl hk)
  exact ⟨hu.gain.trans (stageGain_decay hsus k), hu.stage, hu.elapsed_eq hk⟩

/-- Decay gives way to Sustain after its last call. -/
theorem CallsAdvance.sustain_after_decay (hf : CallsAdvance p b f) {v : Slot} {m : Nat}
    (h : EnvelopeAt p b .decay 1 (f^[m + 1] v)) (hd : 1 ≤ p.decay.toNat) :
    EnvelopeAt p b .sustain 1 (f^[m + p.decay.toNat + 1] v) :=
  hf.next rfl (by decide) (by decide) (by decide) (hf.stage_calls (by decide) h hd (.inl le_rfl))

end

/-- Settles O39: the calls of Attack are followed by those of Decay, if it has any, and those by the calls of Sustain. -/
theorem envelopeRisesAndSettles : Obligations.EnvelopeRisesAndSettles := by
  intro p v f hf hsus he
  have hf : CallsAdvance p v.valid f := by
    obtain rfl | ⟨rfl, hv⟩ := hf
    · exact callsAdvance_advanceSlot p v.valid
    · exact hv ▸ callsAdvance_tickSlot p
  refine ⟨fun hst hA => ?_, fun hst hD => ?_, fun hst k hk1 => ?_⟩
  · have hfirst := hf.first (st := .attack) (by decide) (.inl hA) rfl hst he
    have hattack {k : Nat} (hk1 : 1 ≤ k) (hk : k ≤ p.attack.toNat) : EnvelopeAt p v.valid .attack k (f^[k] v) := by
      simpa only [Nat.zero_add] using hf.stage_calls (by decide) hfirst hk1 (.inl hk)
    have hlast : EnvelopeAt p v.valid .attack (duration p .attack) (f^[p.attack.toNat] v) := hattack hA le_rfl
    have hdecay (hD : p.decay ≠ 0) : EnvelopeAt p v.valid .decay 1 (f^[p.attack.toNat + 1] v) :=
      hf.next (st := .attack) (if_neg hD) (by decide) (by decide) (by decide) hlast
    refine ⟨fun k hk1 hk => ?_, fun k hk1 hk => ?_, fun k hk1 => hf.sustain_calls ?_ hk1⟩
    · exact ⟨(hattack hk1 hk).gain.trans (stageGain_attack p k), (hattack hk1 hk).stage,
        (hattack hk1 hk).elapsed_eq hk⟩
    · have hD : p.decay ≠ 0 := by
        rintro h0
        rw [h0] at hk
        exact Nat.not_succ_le_zero 0 (hk1.trans hk)
      exact hf.decay_calls hsus (hdecay hD) hk1 hk
    · by_cases hD : p.decay = 0
      · rw [hD]
        exact hf.next (st := .attack) (if_pos hD) (by decide) (by decide) (by decide) hlast
      · exact hf.sustain_after_decay (hdecay hD) (Nat.pos_of_ne_zero fun h0 => hD (BitVec.eq_of_toNat_eq h0))
  · have hfirst := hf.first (st := .decay) (by decide) (.inl hD) rfl hst he
    have hlast := hf.sustain_after_decay hfirst hD
    rw [Nat.zero_add] at hlast
    refine ⟨fun k hk1 hk => ?_, fun k hk1 => hf.sustain_calls hlast hk1⟩
    simpa only [Nat.zero_add] using hf.decay_calls hsus hfirst hk1 hk
  · have hfirst := hf.first (by decide) (.inr rfl) rfl hst he
    simpa only [Nat.zero_add] using hf.sustain_calls hfirst hk1

end Sys2Proof.Machine
end

