-- ==== Sys2Proof/Proofs/Inv6.lean ====
section
/-!
INV6 (R39) as far as the rules of `advance` keep it (log entry 15). A tick leaves no active slot in Release at gain 0, so
after a tick INV6 says nothing; before the next one a release makes such a slot only with `las` or `RELEASE` 0, and a
`RELEASE` that is not raised keeps its ramp over.
-/

namespace Sys2Proof.Machine

/-- INV6 of one slot. -/
def Slot.Inv6 (p : Params) (v : Slot) : Prop :=
  v.valid = true → v.stage = .sounding .release → v.gain = 0 → tickSlot p v = Slot.free

/-! ### Releases and starts -/

theorem inv6_releaseSlot (p : Params) (v : Slot) : (releaseSlot p v).Inv6 p := by
  intro hv hst hgain
  refine (tickSlot_release_eq_free_iff hv hst).mpr ?_
  obtain hrel | hzero := (isDone_releaseSlot_iff p v).mp ((isDone_iff _).mpr ⟨hgain, hst⟩)
  · exact .inr (by rw [hrel]; exact Nat.zero_le _)
  · exact .inl hzero

theorem inv6_startVoice (c : Config) (p : Params) (key vel : Num7) (v : Slot) :
    (startVoice c p key vel v).Inv6 p := by
  obtain ⟨_, _, _, hnotRelease⟩ := initialStageSkipsZeroStages p
  exact fun _ hst _ => absurd (Stage.sounding.inj hst) hnotRelease

theorem NoteWrites.inv6 {key vel : Num7} {s : State} {v w : Slot} (h : NoteWrites key vel s v w) :
    w.Inv6 s.params := by
  cases h with
  | released => exact inv6_releaseSlot s.params v
  | restarted | started => exact inv6_startVoice s.cfg s.params key vel _

theorem Slot.Inv6.releaseIfActive {p : Params} {v : Slot} (h : v.Inv6 p) : (releaseIfActive p v).Inv6 p := by
  unfold Machine.releaseIfActive
  split
  · exact inv6_releaseSlot p v
  · exact h

/-- A ramp that is over stays over when `RELEASE` is not raised. -/
theorem Slot.Inv6.of_release_le {p q : Params} {v : Slot} (h : v.Inv6 p) (hle : q.release.toNat ≤ p.release.toNat) :
    v.Inv6 q := by
  intro hv hst hgain
  rw [tickSlot_release_eq_free_iff hv hst]
  exact ((tickSlot_release_eq_free_iff hv hst).mp (h hv hst hgain)).imp_right hle.trans

/-! ### Ticks -/

/-- No active slot is done (R108). -/
def NoneDone (slots : List Slot) : Prop := ∀ v ∈ slots, v.valid = true → isDone v = false

theorem NoneDone.inv6 {slots : List Slot} (h : NoneDone slots) (p : Params) : ∀ v ∈ slots, v.Inv6 p :=
  fun v hv hvalid hst hgain => Bool.noConfusion ((h v hv hvalid).symm.trans ((isDone_iff v).mpr ⟨hgain, hst⟩))

theorem isDone_tickSlot {p : Params} {v : Slot} (h : (tickSlot p v).valid = true) : isDone (tickSlot p v) = false := by
  obtain ⟨htick, hpassed⟩ | ⟨_, _, _, _, htick⟩ | ⟨_, _, _, hnot, htick⟩ := tickSlot_cases p v <;> rw [htick] at h ⊢
  · refine (isDone_eq_false_iff v).mpr fun hst => ?_
    obtain hfree | hnone := hpassed
    · exact Bool.noConfusion (hfree.symm.trans h)
    · rw [hst] at hnone
      exact Bool.noConfusion hnone
  · exact Bool.noConfusion h
  · exact hnot

theorem noneDone_map_tickSlot (p : Params) (slots : List Slot) : NoneDone (slots.map (tickSlot p)) := by
  intro w hw hvalid
  obtain ⟨v, _, rfl⟩ := List.mem_map.mp hw
  exact isDone_tickSlot hvalid

/-- A RENDER that runs no tick leaves the slot file as it is. -/
theorem runTicks_slots_cases (n : Nat) (s : State) :
    (runTicks n s).slots = s.slots ∨ NoneDone (runTicks n s).slots := by
  induction n generalizing s with
  | zero => exact .inl rfl
  | succ n ih =>
    have hscan := noneDone_map_tickSlot s.params s.slots
    obtain ⟨_, _, h⟩ | ⟨_, _, h⟩ | ⟨_, _, _, _, _, h⟩ | ⟨x, rest, _, _, _, h⟩ := runTicks_tick_cases n s <;> rw [h]
    · exact .inl rfl
    · exact .inl rfl
    · exact .inr hscan
    · obtain hsame | hnone := ih (completeTick x rest s)
      · exact .inr (hsame ▸ hscan)
      · exact .inr hnone

/-- With an input frame and no bad slot a tick is run. -/
theorem runTicks_succ_noneDone {s : State} (hgood : NoSlot badSlot s.slots) (hin : s.framesIn ≠ []) (n : Nat) :
    NoneDone (runTicks (n + 1) s).slots := by
  have hscan := noneDone_map_tickSlot s.params s.slots
  obtain ⟨i, hi, _⟩ | ⟨_, hempty, _⟩ | ⟨_, _, _, _, _, h⟩ | ⟨x, rest, _, _, _, h⟩ := runTicks_tick_cases n s
  · obtain ⟨v, hv, hbad⟩ := hi.exists_slot
    exact Bool.noConfusion (hbad.symm.trans (hgood v (List.mem_of_getElem? hv)))
  · exact absurd hempty hin
  · rw [h]
    exact hscan
  · rw [h]
    obtain hsame | hnone := runTicks_slots_cases n (completeTick x rest s)
    · exact hsame ▸ hscan
    · exact hnone

theorem runTicks_keeps_inv6 (n : Nat) {s : State} (hs : s.Inv6) : (runTicks n s).Inv6 := by
  have h : ∀ v ∈ (runTicks n s).slots, v.Inv6 (runTicks n s).params := by
    obtain hsame | hnone := runTicks_slots_cases n s
    · rw [hsame, runTicks_params]
      exact hs
    · exact hnone.inv6 _
  exact h

/-! ### Commands and steps -/

theorem inv6_resetBlock (u : State) : (resetBlock u).Inv6 := by
  intro v hv hvalid
  rw [eq_free_of_mem_resetBlock hv] at hvalid
  exact Bool.noConfusion hvalid

theorem goOn_keeps_inv6 (r : RenderWait) {s : State} (hs : s.Inv6) : (goOn r s).Inv6 := by
  unfold goOn
  split
  · next f _ => exact runTicks_keeps_inv6 r.left (s := frameOut f (s.withWait none)) hs
  · exact runTicks_keeps_inv6 r.left (s := s.withWait none) hs

theorem exec_keeps_inv6 {i : Instr} {s t : State} (hs : s.Inv6) (h : exec i s = .next t)
    (hle : t.params.release.toNat ≤ s.params.release.toNat) : t.Inv6 := by
  cases i with
  | note key vel =>
    obtain hsame | ⟨i, v, w, _, _, hw, hset⟩ := exec_note_cases key vel s
    · obtain rfl := Host.Outcome.next.inj (hsame.symm.trans h)
      exact hs
    · obtain rfl := Host.Outcome.next.inj (hset.symm.trans h)
      intro u hu
      obtain hu | rfl := List.mem_or_eq_of_mem_set hu
      · exact hs u hu
      · exact hw.inv6
  | ctrl id raw =>
    obtain rfl := Host.Outcome.next.inj h
    intro v hv
    have hinv : v.Inv6 s.params := hs v hv
    exact hinv.of_release_le hle
  | asoff =>
    obtain rfl := Host.Outcome.next.inj h
    intro w hw
    obtain ⟨v, hv, rfl⟩ := List.mem_map.mp hw
    have hinv : v.Inv6 s.params := hs v hv
    exact hinv.releaseIfActive
  | render n =>
    obtain rfl := Host.Outcome.next.inj h
    exact runTicks_keeps_inv6 n hs

theorem step_keeps_inv6 {s t : State} (hs : s.Inv6) (h : step s = .next t)
    (hle : t.params.release.toNat ≤ s.params.release.toNat) : t.Inv6 := by
  obtain ⟨_, ⟨_, _, _, rfl⟩ | ⟨_, r, _, hwait⟩ | ⟨_, _, hready⟩⟩ := step_next_cases h
  case inl => exact inv6_resetBlock _
  case inr.inl =>
    obtain ⟨_, rfl⟩ | ⟨_, _, _, rfl⟩ | ⟨_, _, rfl⟩ := hwait
    · exact goOn_keeps_inv6 r hs
    · exact inv6_resetBlock _
    · exact hs
  case inr.inr =>
    obtain ⟨_, rfl⟩ | ⟨_, rest, _, _, _, hexec⟩ | ⟨_, _, _, _, rfl⟩ | ⟨_, _, rfl⟩ | ⟨w, k, b, rest, _, rfl⟩ := hready
    · exact hs
    · exact exec_keeps_inv6 (s := s.withPort rest) hs hexec hle
    · exact hs
    · exact inv6_resetBlock _
    · obtain ⟨u, hu⟩ := abandon_is_reset w k b (s.withPort rest)
      rw [hu]
      exact inv6_resetBlock u

/-- Under the invariant a slot in Release at gain 0 is active and has made no call since its release. -/
theorem State.Inv.valid_and_elapsed {s : State} (h : s.Inv) {v : Slot} (hv : v ∈ s.slots)
    (hst : v.stage = .sounding .release) (hgain : v.gain = 0) : v.valid = true ∧ v.elapsed = 0 := by
  have hvalid : v.valid = true := by
    by_contra hfree
    obtain ⟨hzero, _⟩ := h.sound v hv
    rw [hzero (Bool.eq_false_iff.mpr hfree)] at hst
    exact absurd hst nofun
  exact ⟨hvalid, h.justReleased v hv hvalid hst hgain⟩

/-- Settles O53: the two equivalences are `tickSlot_release_eq_free_iff`, without and with `elapsed` 0; a RENDER that ran
a tick leaves no slot that INV6 speaks of. -/
theorem doneSlotsAreReclaimedUnlessReleaseIsRaised : Obligations.DoneSlotsAreReclaimedUnlessReleaseIsRaised := by
  refine ⟨fun p v hv hst _ => tickSlot_release_eq_free_iff hv hst, fun s hs v hv hst hgain => ?_, inv6_resetBlock,
    fun n s t hgood hin h => ?_, fun s t => step_keeps_inv6⟩
  · obtain ⟨hvalid, helapsed⟩ := hs.valid_and_elapsed hv hst hgain
    have hzero : s.params.release.toNat ≤ v.elapsed.toNat ↔ s.params.release = 0 := by
      rw [helapsed, ← BitVec.toNat_inj]
      exact Nat.le_zero
    rw [tickSlot_release_eq_free_iff hvalid hst, hzero]
  · obtain rfl := Host.Outcome.next.inj h
    exact (runTicks_succ_noneDone hgood hin n).inv6 _

end Sys2Proof.Machine
end

