-- ==== Sys2Proof/Proofs/Mix.lean ====
section
/-!
The mix (R172, R174). Each active slot adds at most 32768 * 32767 to `ACC`, and the division by `CAP` in `Y` takes the
number of slots out again.
-/

namespace Sys2Proof.Machine

theorem voiceProduct_natAbs_le {p : Params} (hp : p.sustain.toNat ≤ 32768) {v : Slot} (hv : v.GainsInRange) :
    (voiceProduct p v).natAbs ≤ 32768 * 32767 := by
  cases hvalid : v.valid with
  | false => simp [voiceProduct, hvalid]
  | true =>
    cases hst : v.stage with
    | sounding st =>
      obtain ⟨hgain, _⟩ := advance_gainsInRange hp hv st
      rw [voiceProduct_of_sounding hvalid hst, Int.natAbs_mul, Int.natAbs_natCast]
      exact Nat.mul_le_mul hgain (wave_natAbs_le (waveIndex_lt v.phase))
    | _ => simp [voiceProduct, hst]

theorem accumulate_natAbs_le {p : Params} (hp : p.sustain.toNat ≤ 32768) {slots : List Slot}
    (h : ∀ v ∈ slots, v.GainsInRange) : (accumulate p slots).natAbs ≤ slots.length * (32768 * 32767) := by
  induction slots with
  | nil => exact Nat.zero_le _
  | cons v slots ih =>
    obtain ⟨hv, hslots⟩ := List.forall_mem_cons.mp h
    calc (voiceProduct p v + accumulate p slots).natAbs
        ≤ (voiceProduct p v).natAbs + (accumulate p slots).natAbs := Int.natAbs_add_le _ _
      _ ≤ 32768 * 32767 + slots.length * (32768 * 32767) := Nat.add_le_add (voiceProduct_natAbs_le hp hv) (ih hslots)
      _ = (slots.length + 1) * (32768 * 32767) := (Nat.add_comm _ _).trans (Nat.succ_mul _ _).symm

theorem mixValue_natAbs (c : Config) (acc : Int) :
    (mixValue c acc).natAbs = acc.natAbs * c.mgNum / (c.cap * (c.mgDen * 128)) := by
  have hden : ((c.mgDen : Int) * c.cap * 128).natAbs = c.cap * (c.mgDen * 128) := by
    rw [show (c.mgDen : Int) * c.cap * 128 = ((c.cap * (c.mgDen * 128) : Nat) : Int) by push_cast; ring]
    exact Int.natAbs_natCast _
  rw [mixValue_eq_int_tdiv, Int.natAbs_tdiv, Int.natAbs_mul, Int.natAbs_natCast, hden]
  rfl

theorem mixValue_neg (c : Config) (acc : Int) : mixValue c (-acc) = -mixValue c acc := by
  rw [mixValue_eq_int_tdiv, mixValue_eq_int_tdiv, Int.neg_mul, Int.neg_tdiv]

theorem mixValue_natAbs_le {c : Config} (hcap : 0 < c.cap) {acc : Int} (h : acc.natAbs ≤ c.cap * (32768 * 32767)) :
    (mixValue c acc).natAbs ≤ 32768 * 32767 * c.mgNum / (c.mgDen * 128) :=
  calc (mixValue c acc).natAbs
      = acc.natAbs * c.mgNum / (c.cap * (c.mgDen * 128)) := mixValue_natAbs c acc
    _ ≤ c.cap * (32768 * 32767) * c.mgNum / (c.cap * (c.mgDen * 128)) :=
        Nat.div_le_div_right (Nat.mul_le_mul_right c.mgNum h)
    _ = 32768 * 32767 * c.mgNum / (c.mgDen * 128) := by rw [Nat.mul_assoc, Nat.mul_div_mul_left _ _ hcap]

theorem configOk_cap {c : Config} (h : configOk c = true) : 1 ≤ c.cap ∧ c.cap ≤ 256 := by
  simp only [configOk, Bool.and_eq_true, decide_eq_true_eq] at h
  obtain ⟨⟨⟨⟨⟨⟨⟨⟨hcap, _⟩, _⟩, _⟩, _⟩, _⟩, _⟩, _⟩, _⟩ := h
  exact hcap

/-- Settles O49: the bound of `ACC` is that of each slot times their number, and `Y` divides by that number. -/
theorem mixIsBounded : Obligations.MixIsBounded := by
  intro c p slots hc hlen hp hgains
  obtain ⟨hcap, _⟩ := configOk_cap hc
  have hacc : (accumulate p slots).natAbs ≤ c.cap * (32768 * 32767) := hlen ▸ accumulate_natAbs_le hp hgains
  have hmix := mixValue_natAbs_le hcap hacc
  refine ⟨by rwa [Nat.mul_assoc], hmix, fun hnum hden => ?_, mixValue_zero c, mixValue_neg c⟩
  have hdefault : (mixValue c (accumulate p slots)).natAbs ≤ 6710681 := by rwa [hnum, hden] at hmix
  refine ⟨hdefault, ?_⟩
  rw [sat24_toInt, clamp]
  omega

/-- Settles O50: one clipped sum at each channel. -/
theorem outputIsClipped : Obligations.OutputIsClipped := by
  intro x y
  refine ⟨List.length_map _, fun c a ha => ⟨sat24 (a.toInt + y), ?_, sat24_toInt _⟩⟩
  rw [mixFrame, List.getElem?_map, ha, Option.map_some]

end Sys2Proof.Machine
end

