-- ==== Sys2Proof/Proofs/Pinc.lean ====
section
/-!
`PINC` (R52). With `x` the real increment, `(2x)^12` is `pincNum / pincDen`, so the integer test of the search is
`m <= 2x` and the search ends at `floor(2x)`. From the parity of that number, and from whether `2x` is it, the nearest
integer to `x` is read off.
-/

namespace Sys2Proof.Machine

/-- The real number that `PINC[k]` rounds (R52). -/
noncomputable def pincExact (c : Config) (k : Nat) : ℝ :=
  2 ^ 32 * (c.a4Hz * (2 : ℝ) ^ (((k : ℝ) - c.a4Key) / 12)) / c.sr

theorem pincExact_nonneg (c : Config) (k : Nat) : 0 ≤ pincExact c k := by
  unfold pincExact
  positivity

theorem pincDen_pos {c : Config} (h : 0 < c.sr) : 0 < pincDen c :=
  Nat.mul_pos (Nat.pow_pos h) (Nat.two_pow_pos _)

/-- The twelfth power clears the root of two. -/
theorem two_mul_pincExact_pow {c : Config} (h : 0 < c.sr) (k : Nat) :
    (2 * pincExact c k) ^ 12 * (pincDen c : ℝ) = pincNum c k := by
  have hroot : ((2 : ℝ) ^ (((k : ℝ) - c.a4Key) / 12)) ^ 12 * 2 ^ c.a4Key = 2 ^ k := by
    rw [← Real.rpow_natCast, ← Real.rpow_mul zero_le_two, ← Real.rpow_natCast 2 c.a4Key, ← Real.rpow_add two_pos,
      ← Real.rpow_natCast 2 k]
    congr 1
    push_cast
    ring
  have hsr : (c.sr : ℝ) ≠ 0 := Nat.cast_ne_zero.mpr h.ne'
  have hdouble : 2 * pincExact c k = 2 * 2 ^ 32 * c.a4Hz * (2 : ℝ) ^ (((k : ℝ) - c.a4Key) / 12) / c.sr := by
    rw [pincExact]
    ring
  rw [hdouble, pincDen, pincNum]
  simp only [Nat.cast_mul, Nat.cast_pow, Nat.cast_ofNat]
  rw [← hroot]
  generalize (2 : ℝ) * 2 ^ 32 * c.a4Hz = scale
  field_simp

theorem pincTest_iff {c : Config} (h : 0 < c.sr) (k m : Nat) :
    m ^ 12 * pincDen c ≤ pincNum c k ↔ (m : ℝ) ≤ 2 * pincExact c k := by
  have hden : (0 : ℝ) < pincDen c := Nat.cast_pos.mpr (pincDen_pos h)
  have hx : 0 ≤ 2 * pincExact c k := mul_nonneg zero_le_two (pincExact_nonneg c k)
  rw [← pow_le_pow_iff_left₀ m.cast_nonneg hx (by decide : 12 ≠ 0), ← mul_le_mul_iff_left₀ hden,
    two_mul_pincExact_pow h]
  exact_mod_cast Iff.rfl

theorem pincTie_iff {c : Config} (h : 0 < c.sr) (k m : Nat) :
    m ^ 12 * pincDen c = pincNum c k ↔ (m : ℝ) = 2 * pincExact c k := by
  have hden : (pincDen c : ℝ) ≠ 0 := Nat.cast_ne_zero.mpr (pincDen_pos h).ne'
  have hx : 0 ≤ 2 * pincExact c k := mul_nonneg zero_le_two (pincExact_nonneg c k)
  rw [← pow_left_inj₀ m.cast_nonneg hx (by decide : 12 ≠ 0), ← mul_left_inj' hden, two_mul_pincExact_pow h]
  exact_mod_cast Iff.rfl

/-- The number of bits of the search is enough. -/
theorem pincNum_lt_pow (c : Config) (k : Nat) : pincNum c k < (2 ^ ((pincNum c k).log2 / 12 + 1)) ^ 12 := by
  refine Nat.lt_log2_self.trans_le ?_
  rw [← pow_mul]
  exact Nat.pow_le_pow_right two_pos (by omega)

/-- The search ends at `floor(2x)`. -/
theorem pincHalves_spec {c : Config} (h : 0 < c.sr) (k : Nat) :
    (pincHalves c k : ℝ) ≤ 2 * pincExact c k ∧ 2 * pincExact c k < pincHalves c k + 1 := by
  have hlow : Nat.ble (0 ^ 12 * pincDen c) (pincNum c k) = true := Nat.ble_eq.mpr (by simp)
  have hhigh : Nat.ble ((0 + 2 ^ ((pincNum c k).log2 / 12 + 1)) ^ 12 * pincDen c) (pincNum c k) = false := by
    refine Bool.eq_false_iff.mpr fun hle => ?_
    rw [Nat.zero_add] at hle
    have hle := Nat.le_of_ble_eq_true hle
    exact Nat.not_lt.mpr ((Nat.le_mul_of_pos_right _ (pincDen_pos h)).trans hle) (pincNum_lt_pow c k)
  obtain ⟨hpass, hfail⟩ := greatest_spec (fun m => Nat.ble (m ^ 12 * pincDen c) (pincNum c k)) _ 0 hlow hhigh
  refine ⟨(pincTest_iff h k _).mp (Nat.le_of_ble_eq_true hpass), ?_⟩
  rw [← not_le]
  intro hle
  have hpass' := (pincTest_iff h k (pincHalves c k + 1)).mpr (by exact_mod_cast hle)
  exact Bool.false_ne_true (hfail.symm.trans (Nat.ble_eq.mpr hpass'))

/-- `rne(x)` (R8): within one half of `x`, and even if exactly one half away. -/
theorem pincRounded_spec {c : Config} (h : 0 < c.sr) (k : Nat) :
    |(pincRounded c k : ℝ) - pincExact c k| ≤ 1 / 2 ∧
      (|(pincRounded c k : ℝ) - pincExact c k| = 1 / 2 → Even (pincRounded c k)) := by
  obtain ⟨hle, hlt⟩ := pincHalves_spec h k
  have htie := pincTie_iff h k (pincHalves c k)
  unfold pincRounded
  generalize pincHalves c k = m at hle hlt htie ⊢
  obtain ⟨q, rfl | rfl⟩ := m.even_or_odd'
  case inl =>
    have hmod : 2 * q % 2 = 0 := Nat.mul_mod_right 2 q
    have hdiv : 2 * q / 2 = q := Nat.mul_div_cancel_left q two_pos
    simp only [hmod, hdiv, if_true]
    push_cast at hle hlt
    have hnear : |(q : ℝ) - pincExact c k| < 1 / 2 := abs_lt.mpr ⟨by linarith, by linarith⟩
    exact ⟨hnear.le, fun heq => absurd heq hnear.ne⟩
  case inr =>
    have hmod : (2 * q + 1) % 2 ≠ 0 := by omega
    have hdiv : (2 * q + 1) / 2 = q := by omega
    simp only [hmod, hdiv, if_false]
    push_cast at hle hlt htie
    split_ifs with hdown
    · obtain ⟨heq, heven⟩ := hdown
      have hx := htie.mp heq
      have hhalf : |(q : ℝ) - pincExact c k| = 1 / 2 := by
        rw [abs_sub_comm, abs_of_nonneg] <;> linarith
      exact ⟨hhalf.le, fun _ => Nat.even_iff.mpr heven⟩
    · push_cast
      have hdist : |(q : ℝ) + 1 - pincExact c k| = q + 1 - pincExact c k := abs_of_nonneg (by linarith)
      rw [hdist]
      refine ⟨by linarith, fun heq => ?_⟩
      have hodd : ¬ q % 2 = 0 := fun heven => hdown ⟨htie.mpr (by linarith), heven⟩
      exact Nat.even_add_one.mpr fun heven => hodd (Nat.even_iff.mp heven)

/-- Settles O48: the real increment is `pincExact`, and the ROM keeps its low 32 bits. -/
theorem pincIsTheNearestInteger : Obligations.PincIsTheNearestInteger := by
  intro c k h
  obtain ⟨hnear, heven⟩ := pincRounded_spec h k
  exact ⟨hnear, heven, BitVec.toNat_ofNat _ _⟩

end Sys2Proof.Machine
end

