-- ==== Sys2Proof/Proofs/Wave.lean ====
section
/-!
The waveform ROM (R51). Its symmetries are those of the two definitions over the printed quarter. For the quarter, the
entry `j` is compared with the real part of the `j`-th power of a rational point `chord` near `exp(i*pi/512)`: powers of
two points of the unit disc stay as close as `j` times the points, and the powers of `chord` are exact integers over a
power of two, so the comparison is a computation in integers.
-/

namespace Sys2Proof.Machine

/-! ### Symmetries of the table -/

theorem wave_of_le {i : Nat} (h : i ≤ 512) : wave i = waveHalf i := if_pos h

/-- Beyond the half the table is read backwards; at 512 both readings are one entry. -/
theorem wave_mirror {i : Nat} (h : i ≤ 1024) : wave (1024 - i) = wave i := by
  obtain hlt | rfl | hgt := Nat.lt_trichotomy i 512
  · rw [wave, if_neg (by omega), wave_of_le hlt.le, Nat.sub_sub_self h]
  · rfl
  · rw [wave_of_le (by omega), wave, if_neg (by omega)]

theorem waveHalf_mirror {i : Nat} (h : i ≤ 512) : waveHalf (512 - i) = -waveHalf i := by
  obtain hlt | rfl | hgt := Nat.lt_trichotomy i 256
  · rw [waveHalf, if_neg (by omega), Nat.sub_sub_self h, waveHalf, if_pos hlt.le]
  · decide
  · rw [waveHalf, if_pos (by omega), waveHalf, if_neg (by omega), neg_neg]

theorem wave_half_turn {i : Nat} (h : i ≤ 512) : wave (i + 512) = -wave i := by
  have hback : i + 512 = 1024 - (512 - i) := by omega
  rw [hback, wave_mirror (by omega), wave_of_le (Nat.sub_le 512 i), waveHalf_mirror h, wave_of_le h]

/-- Settles O46. -/
theorem waveTableSymmetries : Obligations.WaveTableSymmetries := by
  refine ⟨by decide, by decide, by decide, by decide, fun i hi => ?_, fun i hi => ?_⟩
  · have hi := List.mem_range.mp hi
    refine ⟨wave_natAbs_le hi, ?_, ?_⟩
    · obtain rfl | hpos := i.eq_zero_or_pos
      · rfl
      · rw [Nat.mod_eq_of_lt (by omega), wave_mirror hi.le]
    · obtain hlt | hge := Nat.lt_or_ge i 512
      · rw [Nat.mod_eq_of_lt (by omega), wave_half_turn hlt.le]
      · obtain ⟨j, rfl⟩ := Nat.exists_eq_add_of_le' hge
        rw [show (j + 512 + 512) % 1024 = j by omega, wave_half_turn (by omega), neg_neg]
  · have hi := List.mem_range.mp hi
    rw [wave_of_le (by omega), wave_of_le (by omega), waveHalf_mirror (by omega)]

/-! ### A rational point near the 1024th root of unity -/

/-- `exp(i*pi/512)`, whose powers hold the cosines of R51. -/
noncomputable def turn : ℂ := Complex.exp ((Real.pi / 512 : ℝ) * Complex.I)

/-- A point with denominator `2^36` close to `turn` and within the unit disc. -/
noncomputable def chord : ℂ := ⟨68718183111 / 68719476736, 421654782 / 68719476736⟩

theorem turn_pow_re (j : Nat) : (turn ^ j).re = Real.cos (j * (Real.pi / 512)) := by
  rw [turn, ← Complex.exp_nat_mul, ← mul_assoc, ← Complex.ofReal_natCast, ← Complex.ofReal_mul,
    Complex.exp_ofReal_mul_I_re]

theorem norm_turn : ‖turn‖ = 1 := Complex.norm_exp_ofReal_mul_I _

theorem norm_chord_le : ‖chord‖ ≤ 1 := by
  rw [← sq_le_one_iff₀ (norm_nonneg _), Complex.sq_norm, Complex.normSq_apply, chord]
  norm_num

/-- The Taylor polynomials of the cosine and the sine, with `pi` to twenty digits. -/
theorem norm_turn_sub_chord_le : ‖turn - chord‖ ≤ 1 / 5000000000 := by
  set θ := Real.pi / 512 with hθ
  have hlo : 0.006135923151542564 ≤ θ := by linarith [Real.pi_gt_d20]
  have hhi : θ ≤ 0.006135923151542566 := by linarith [Real.pi_lt_d20]
  have hpos : 0 ≤ θ := le_trans (by norm_num) hlo
  have habs : |θ| = θ := abs_of_nonneg hpos
  have hle : |θ| ≤ 1 := by rw [habs]; linarith
  have pow_lo (n : Nat) : 0.006135923151542564 ^ n ≤ θ ^ n := pow_le_pow_left₀ (by norm_num) hlo n
  have pow_hi (n : Nat) : θ ^ n ≤ 0.006135923151542566 ^ n := pow_le_pow_left₀ hpos hhi n
  have hcos := abs_le.mp (Real.cos_bound hle)
  have hsin := abs_le.mp (Real.sin_bound hle)
  rw [habs] at hcos hsin
  have hre : |(turn - chord).re| ≤ 14 / 100000000000 := by
    rw [Complex.sub_re, turn, Complex.exp_ofReal_mul_I_re, chord, ← hθ, abs_le]
    constructor <;> linarith [pow_lo 2, pow_hi 2, pow_hi 4]
  have him : |(turn - chord).im| ≤ 1 / 100000000000 := by
    rw [Complex.sub_im, turn, Complex.exp_ofReal_mul_I_im, chord, ← hθ, abs_le]
    constructor <;> linarith [pow_lo 3, pow_hi 3, pow_hi 5]
  calc ‖turn - chord‖ ≤ |(turn - chord).re| + |(turn - chord).im| := Complex.norm_le_abs_re_add_abs_im _
    _ ≤ 1 / 5000000000 := by linarith

/-- Powers of two points of the unit disc part no faster than linearly. -/
theorem norm_pow_sub_pow_le {z w : ℂ} (hz : ‖z‖ ≤ 1) (hw : ‖w‖ ≤ 1) (n : Nat) : ‖z ^ n - w ^ n‖ ≤ n * ‖z - w‖ := by
  induction n with
  | zero => simp
  | succ n ih =>
    have hzn : ‖z ^ n‖ ≤ 1 := by rw [norm_pow]; exact pow_le_one₀ (norm_nonneg z) hz
    calc ‖z ^ (n + 1) - w ^ (n + 1)‖ = ‖z ^ n * (z - w) + (z ^ n - w ^ n) * w‖ := by ring_nf
      _ ≤ ‖z ^ n‖ * ‖z - w‖ + ‖z ^ n - w ^ n‖ * ‖w‖ :=
        (norm_add_le _ _).trans_eq (by rw [norm_mul, norm_mul])
      _ ≤ 1 * ‖z - w‖ + n * ‖z - w‖ * 1 := by gcongr
      _ = (n + 1 : Nat) * ‖z - w‖ := by push_cast; ring

theorem cos_sub_chord_pow_le (j : Nat) :
    |Real.cos (j * (Real.pi / 512)) - (chord ^ j).re| ≤ j * (1 / 5000000000) := by
  rw [← turn_pow_re, ← Complex.sub_re]
  calc |(turn ^ j - chord ^ j).re| ≤ ‖turn ^ j - chord ^ j‖ := Complex.abs_re_le_norm _
    _ ≤ j * ‖turn - chord‖ := norm_pow_sub_pow_le norm_turn.le norm_chord_le j
    _ ≤ j * (1 / 5000000000) := by gcongr; exact norm_turn_sub_chord_le

/-! ### The printed quarter, in integers -/

/-- The `n` entries from entry `j` on against `x / s`, where `(x + iy) / s` is the power of `chord` for entry `j`: the
distance of `32767 * x / s` from the entry, with `j * 32767 / 5000000000` for `chord`, is less than one half. -/
def quarterNear : Nat → Nat → Int → Int → Int → Bool
  | 0, _, _, _, _ => true
  | n + 1, j, x, y, s =>
    decide ((waveEntry j * s - 32767 * x).natAbs * 10000000000 + 65534 * j * s.natAbs < 5000000000 * s.natAbs) &&
      quarterNear n (j + 1) (x * 68718183111 - y * 421654782) (x * 421654782 + y * 68718183111) (s * 68719476736)

theorem quarterNear_all : quarterNear 257 0 1 0 1 = true := by decide +kernel

/-- `(x + iy) / s` is the `j`-th power of `chord`. -/
def IsChordPow (j : Nat) (x y s : Int) : Prop := 0 < s ∧ (⟨x, y⟩ : ℂ) = (s : ℂ) * chord ^ j

theorem IsChordPow.succ {j : Nat} {x y s : Int} (h : IsChordPow j x y s) :
    IsChordPow (j + 1) (x * 68718183111 - y * 421654782) (x * 421654782 + y * 68718183111) (s * 68719476736) := by
  obtain ⟨hs, hpow⟩ := h
  have hchord : 68719476736 * chord = ⟨68718183111, 421654782⟩ := by
    apply Complex.ext <;> simp [chord] <;> norm_num
  refine ⟨by positivity, ?_⟩
  calc (⟨((x * 68718183111 - y * 421654782 : Int) : ℝ), ((x * 421654782 + y * 68718183111 : Int) : ℝ)⟩ : ℂ)
      = ⟨x, y⟩ * ⟨68718183111, 421654782⟩ := by apply Complex.ext <;> simp
    _ = s * chord ^ j * (68719476736 * chord) := by rw [hpow, hchord]
    _ = ((s * 68719476736 : Int) : ℂ) * chord ^ (j + 1) := by push_cast; ring

/-- The real number that `WAVE[i]` rounds (R51). -/
noncomputable def waveExact (i : Nat) : ℝ := 32767 * Real.cos (2 * Real.pi * i / 1024)

/-- The test of one entry, read in the reals. -/
theorem abs_sub_waveExact_lt {e : Int} {j : Nat} {x y s : Int} (h : IsChordPow j x y s)
    (htest : (e * s - 32767 * x).natAbs * 10000000000 + 65534 * j * s.natAbs < 5000000000 * s.natAbs) :
    |(e : ℝ) - waveExact j| < 1 / 2 := by
  obtain ⟨hs, hpow⟩ := h
  have hs' : (0 : ℝ) < s := Int.cast_pos.mpr hs
  have hx : (x : ℝ) = s * (chord ^ j).re := by simpa using congrArg Complex.re hpow
  have hnat : (s.natAbs : ℝ) = s := by rw [Nat.cast_natAbs, abs_of_pos hs]
  have hdist : ((e * s - 32767 * x).natAbs : ℝ) = s * |(e : ℝ) - 32767 * (chord ^ j).re| := by
    rw [Nat.cast_natAbs, Int.cast_abs]
    push_cast
    rw [hx, ← abs_of_pos hs', ← abs_mul, abs_of_pos hs']
    ring_nf
  have hreal : ((e * s - 32767 * x).natAbs : ℝ) * 10000000000 + 65534 * j * s.natAbs < 5000000000 * s.natAbs := by
    exact_mod_cast htest
  rw [hdist, hnat] at hreal
  have hnear : |(e : ℝ) - 32767 * (chord ^ j).re| * 10000000000 + 65534 * j < 5000000000 :=
    lt_of_mul_lt_mul_left (by linarith) hs'.le
  have hcos := cos_sub_chord_pow_le j
  have hangle : 2 * Real.pi * j / 1024 = j * (Real.pi / 512) := by ring
  rw [waveExact, hangle]
  calc |(e : ℝ) - 32767 * Real.cos (j * (Real.pi / 512))|
      ≤ |(e : ℝ) - 32767 * (chord ^ j).re| + |32767 * (chord ^ j).re - 32767 * Real.cos (j * (Real.pi / 512))| :=
        abs_sub_le _ _ _
    _ = |(e : ℝ) - 32767 * (chord ^ j).re| + 32767 * |Real.cos (j * (Real.pi / 512)) - (chord ^ j).re| := by
        rw [← mul_sub, abs_mul, abs_sub_comm (chord ^ j).re, abs_of_pos (by norm_num : (0 : ℝ) < 32767)]
    _ < 1 / 2 := by linarith

theorem waveEntry_near_of_quarterNear {n j : Nat} {x y s : Int} (h : IsChordPow j x y s)
    (htest : quarterNear n j x y s = true) {i : Nat} (hi : i < n) :
    |(waveEntry (j + i) : ℝ) - waveExact (j + i)| < 1 / 2 := by
  induction n generalizing j x y s i with
  | zero => exact absurd hi (Nat.not_lt_zero i)
  | succ n ih =>
    rw [quarterNear, Bool.and_eq_true, decide_eq_true_eq] at htest
    obtain ⟨hfirst, hrest⟩ := htest
    cases i with
    | zero => exact abs_sub_waveExact_lt h hfirst
    | succ i =>
      have hnext := ih h.succ hrest (Nat.lt_of_succ_lt_succ hi)
      rwa [Nat.add_right_comm, Nat.add_assoc] at hnext

theorem waveEntry_near {i : Nat} (h : i ≤ 256) : |(waveEntry i : ℝ) - waveExact i| < 1 / 2 := by
  have hone : IsChordPow 0 1 0 1 := ⟨by decide, by apply Complex.ext <;> simp⟩
  simpa only [Nat.zero_add] using waveEntry_near_of_quarterNear hone quarterNear_all (Nat.lt_succ_of_le h)

/-! ### The whole table -/

theorem waveExact_half {i : Nat} (h : i ≤ 512) : waveExact (512 - i) = -waveExact i := by
  have hangle : 2 * Real.pi * ((512 - i : Nat) : ℝ) / 1024 = Real.pi - 2 * Real.pi * i / 1024 := by
    rw [Nat.cast_sub h]
    push_cast
    ring
  rw [waveExact, hangle, Real.cos_pi_sub, waveExact, mul_neg]

theorem waveExact_mirror {i : Nat} (h : i ≤ 1024) : waveExact (1024 - i) = waveExact i := by
  have hangle : 2 * Real.pi * ((1024 - i : Nat) : ℝ) / 1024 = 2 * Real.pi - 2 * Real.pi * i / 1024 := by
    rw [Nat.cast_sub h]
    push_cast
    ring
  rw [waveExact, hangle, Real.cos_two_pi_sub, waveExact]

theorem waveHalf_near {i : Nat} (h : i ≤ 512) : |(waveHalf i : ℝ) - waveExact i| < 1 / 2 := by
  obtain hq | hq := Nat.le_total i 256
  · rw [waveHalf, if_pos hq]
    exact waveEntry_near hq
  · have hmirror := waveEntry_near (i := 512 - i) (by omega)
    rw [waveExact_half h] at hmirror
    have hval : waveHalf i = -waveEntry (512 - i) := by
      rw [← neg_neg (waveHalf i), ← waveHalf_mirror h, waveHalf, if_pos (by omega)]
    have hflip : -(waveEntry (512 - i) : ℝ) - waveExact i = -(waveEntry (512 - i) - -waveExact i) := by ring
    rwa [hval, Int.cast_neg, hflip, abs_neg]

/-- Settles O47: the printed quarter by `quarterNear`, the rest by the symmetries that table and cosine share. -/
theorem waveIsTheRoundedCosine : Obligations.WaveIsTheRoundedCosine := by
  intro i hi
  obtain h | h := Nat.le_total i 512
  · rw [wave_of_le h]
    exact waveHalf_near h
  · have hmirror := waveHalf_near (i := 1024 - i) (by omega)
    rwa [waveExact_mirror hi.le, ← wave_of_le (by omega), wave_mirror hi.le] at hmirror

end Sys2Proof.Machine
end
